-- ==== Sys2Proof/Word.lean ====
section
/-! DEFINITION. The word types of the block and the closed sets of names that its encodings and its register
map use (spec/00_scope.md R11 to R13, spec/10_state.md R33, spec/30_encoding.md R112, spec/60_exceptions.md R271). -/

namespace Sys2Proof

/-- One byte of the sample RAM. -/
abbrev Byte := BitVec 8

/-- A host-visible register, a bus data word, a command word (R30, R33, R110). -/
abbrev Word := BitVec 32

/-- A sample word, Q1.15 two's complement (R13). Its sample value `sext_16` is `toInt`. -/
abbrev Sample := BitVec 16

/-- A byte offset from the block's base: the port `paddr` (R30). -/
abbrev Offset := BitVec 20

/-- The frequency register that a TONE's FSEL field selects (R112). -/
inductive FreqSel where
  /-- FSEL = 0: FREQ0. -/
  | freq0
  /-- FSEL = 1: FREQ1. -/
  | freq1
  /-- FSEL = 2: START_FREQ. -/
  | start
  /-- FSEL = 3: FREQ_T. -/
  | freqT
deriving DecidableEq, Repr, Inhabited

/-- The command errors of R271, in the priority order of R274. -/
inductive CommandError where
  /-- Code 1: `w[3:0]` in 4..15. -/
  | illegalOp
  /-- Code 2: a reserved bit of the command word is set. -/
  | rsvdField
  /-- Code 3: FS = 0. -/
  | cfgFs
  /-- Code 4: the window length is outside the supported range. -/
  | len
  /-- Code 5: the buffer leaves the sample RAM. -/
  | range
deriving DecidableEq, Repr, Inhabited

/-- The host-visible registers of R33, in the order of its table. -/
inductive Reg where
  | id | version | params | ctrl | status | cmd
  | argAddr | argLen | fs | freq0 | freq1 | startFreq | tol | freqT
  | ftw | tdK0 | tdK1
  | tdRe0Lo | tdRe0Hi | tdIm0Lo | tdIm0Hi | tdRe1Lo | tdRe1Hi | tdIm1Lo | tdIm1Hi
  | faK | faFreq | faReLo | faReHi | faImLo | faImHi
deriving DecidableEq, Repr, Inhabited

/-- How the host may use a register: the access column of R33. -/
inductive Access where
  /-- Read-only: a write is ignored (R51). -/
  | ro
  /-- Read and write. -/
  | rw
  /-- Write-only: reads 0 (R40). -/
  | wo
  /-- Read-only bits and bits that a write of 1 clears (R38). -/
  | w1c
deriving DecidableEq, Repr, Inhabited

end Sys2Proof
end

