-- ==== Sys2Proof/Syntax.lean ====
section
/-! DEFINITION. The commands of the block, one constructor for each row of spec/opcode_table.json
(spec/30_encoding.md R111). -/

namespace Sys2Proof

/-- A command, with the operand its command word carries. Every other operand comes from registers (R113). -/
inductive Instr where
  /-- NOP, OP = 0 (R150). -/
  | nop
  /-- TONE, OP = 1 (R176); FSEL selects the frequency register (R112). -/
  | tone (fsel : FreqSel)
  /-- DETECT, OP = 2 (R230). -/
  | detect
  /-- ANALYZE, OP = 3 (R250). -/
  | analyze
deriving DecidableEq, Repr, Inhabited

end Sys2Proof
end

