-- ==== Sys2Proof/WellFormed.lean ====
section
/-! DEFINITION. Well-formedness of command words and of commands (spec/30_encoding.md R110, R115, R116).
A command built from the constructors of `Instr` carries no value its encoding cannot hold, so every `Instr` is
well formed; the checks that can fail are those on a command word. -/

namespace Sys2Proof

/-- One row of the match and mask table of R115. -/
structure OpcodeRow where
  mnemonic : String
  matchBits : Word
  maskBits : Word
deriving DecidableEq, Repr

/-- The four rows of R115. -/
def opcodeRows : List OpcodeRow :=
  [ ⟨"NOP", 0x00000000#32, 0xFFFFFFFF#32⟩,
    ⟨"TONE", 0x00000001#32, 0xFFFFFFCF#32⟩,
    ⟨"DETECT", 0x00000002#32, 0xFFFFFFFF#32⟩,
    ⟨"ANALYZE", 0x00000003#32, 0xFFFFFFFF#32⟩ ]

/-- R115: a word selects a row's command iff its masked bits are the row's. -/
def OpcodeRow.selects (r : OpcodeRow) (w : Word) : Bool := w &&& r.maskBits == r.matchBits

/-- The row of the table that a command belongs to. -/
def Instr.mnemonic : Instr → String
  | .nop => "NOP"
  | .tone _ => "TONE"
  | .detect => "DETECT"
  | .analyze => "ANALYZE"

/-- R111: the OP value names a command. -/
def opDefined (w : Word) : Bool := (w.extractLsb' 0 4).toNat < 4

/-- R110: the reserved bits 31:6 are 0. -/
def rsvdClear (w : Word) : Bool := w.extractLsb' 6 26 == 0#26

/-- R112: FSEL is 0 unless the command is TONE. -/
def fselAllowed (w : Word) : Bool := w.extractLsb' 0 4 == 1#4 || w.extractLsb' 4 2 == 0#2

/-- A command word is well formed iff it breaks none of the rules of R116. -/
def wordWellFormed (w : Word) : Bool := opDefined w && rsvdClear w && fselAllowed w

/-- The number of the FSEL value that a selector stands for fits the two bits of the field (R110, R112). -/
def FreqSel.number : FreqSel → Nat
  | .freq0 => 0
  | .freq1 => 1
  | .start => 2
  | .freqT => 3

/-- Every operand of a command fits its field of the command word. -/
def Instr.wellFormed : Instr → Bool
  | .nop => true
  | .tone fsel => fsel.number < 4
  | .detect => true
  | .analyze => true

end Sys2Proof
end

