-- ==== Sys2Proof/Decode.lean ====
section
/-! DEFINITION. Decoding a command word, total on all 2^32 words, and the encoder written from the same tables
(spec/30_encoding.md R110 to R116). -/

namespace Sys2Proof

/-- The field OP = `w[3:0]` (R110). -/
def opField (w : Word) : BitVec 4 := w.extractLsb' 0 4

/-- The field FSEL = `w[5:4]` (R110). -/
def fselField (w : Word) : BitVec 2 := w.extractLsb' 4 2

/-- The field RSVD = `w[31:6]` (R110). -/
def rsvdField (w : Word) : BitVec 26 := w.extractLsb' 6 26

/-- The FSEL values of R112. -/
def FreqSel.ofField (b : BitVec 2) : FreqSel :=
  match b.toNat with
  | 0 => .freq0
  | 1 => .freq1
  | 2 => .start
  | _ => .freqT

/-- The FSEL bits of a selector (R112). -/
def FreqSel.field : FreqSel → BitVec 2
  | .freq0 => 0#2
  | .freq1 => 1#2
  | .start => 2#2
  | .freqT => 3#2

/-- R114, its tests in its order: the first that fails names the error. -/
def decode (w : Word) : Except CommandError Instr :=
  if 4 ≤ (opField w).toNat then .error .illegalOp
  else if rsvdField w ≠ 0#26 then .error .rsvdField
  else if opField w ≠ 1#4 ∧ fselField w ≠ 0#2 then .error .rsvdField
  else match (opField w).toNat with
    | 0 => .ok .nop
    | 1 => .ok (.tone (FreqSel.ofField (fselField w)))
    | 2 => .ok .detect
    | _ => .ok .analyze

/-- The OP value of a command (R111). -/
def Instr.op : Instr → BitVec 4
  | .nop => 0#4
  | .tone _ => 1#4
  | .detect => 2#4
  | .analyze => 3#4

/-- The FSEL value of a command: 0 but for TONE (R112). -/
def Instr.fselBits : Instr → BitVec 2
  | .nop => 0#2
  | .tone fsel => fsel.field
  | .detect => 0#2
  | .analyze => 0#2

/-- The command word of a command: `{RSVD = 0, FSEL, OP}` (R110). -/
def encode (i : Instr) : Word := 0#26 ++ i.fselBits ++ i.op

/-- The command that this decoder reads from a word given as the opcode table numbers its bits: `nbits` bits of
`w`, every bit of the command word above them 0. -/
def decodeTableWord (nbits w : Nat) : Option Instr :=
  if w % 2 ^ nbits < 2 ^ 32 then
    match decode (BitVec.ofNat 32 (w % 2 ^ nbits)) with
    | .ok i => some i
    | .error _ => none
  else none

end Sys2Proof
end

