-- ==== Sys2Proof/Machine/Latch.lean ====
section
/-! DEFINITION. The hidden registers of the block: the latched command (spec/10_state.md R49) and the datapath
registers (R50). They stand before Config because their contents are free values while no command is in flight. -/

namespace Sys2Proof.Machine

/-- The latched command LC of R49. Its `op` and `fsel` are held decoded, as the command they stand for. -/
structure LatchedCommand where
  /-- `op` and `fsel`. -/
  cmd : Instr
  addr : Word
  len : Word
  fs : Word
  freq0 : Word
  freq1 : Word
  start : Word
  tol : Word
  freqT : Word
  fmap : Bool
deriving DecidableEq, Repr, Inhabited

/-- The datapath registers of R50. No rule reads them while `SEQ = IDLE` (R312), and the completion step computes a
command whole (R50), so no step of this model reads them at all. Widths that no rule gives are notes/assumptions/15.md. -/
structure Datapath where
  /-- The NCO phase accumulator (R175). -/
  phase : BitVec 32
  /-- The Hann window index generator: a `widx` of R201, 0..1023. -/
  windowIndex : BitVec 10
  /-- The twiddle index generator of the first bin: a `tidx` of R204, 0..1023. -/
  twiddle0 : BitVec 10
  /-- The twiddle index generator of the second bin. -/
  twiddle1 : BitVec 10
  /-- The 48-bit accumulators of the first bin (R205). -/
  accRe0 : BitVec 48
  accIm0 : BitVec 48
  /-- The 48-bit accumulators of the second bin. -/
  accRe1 : BitVec 48
  accIm1 : BitVec 48
  /-- The analyzer's running maximum: its bin (R251) and its power, below 2^91 (R207). -/
  peakBin : BitVec 16
  peakPower : BitVec 91
deriving DecidableEq, Repr, Inhabited

end Sys2Proof.Machine
end

