-- ==== Sys2Proof/Config.lean ====
section
/-! DEFINITION. What an implementation of the block fixes, and the values the spec leaves open
(spec/00_scope.md R9, spec/93_implementation_defined.md U1 to U7). -/

namespace Sys2Proof.Config

/-- The parameters a model takes as arguments (R9, R91). They stand in State so that every statement about every
state is a statement about every block; no step changes them. -/
structure Params where
  /-- RAM_AW less 8: RAM_AW is an integer 8..18 (R9). -/
  ramAwLess8 : Fin 11
  /-- BASE in units of 1 MiB: BASE is aligned to 1 MiB (R91). -/
  basePage : Nat
deriving DecidableEq, Repr

/-- The default block: RAM_AW = 18 (R9). BASE has no default in the spec; 0 is notes/assumptions/7.md. -/
def Params.default : Params := ⟨10, 0⟩

/-- RAM_AW. -/
def Params.ramAw (p : Params) : Nat := 8 + p.ramAwLess8.val

/-- RAM_DEPTH = 2^RAM_AW, in samples (R9). -/
def Params.ramDepth (p : Params) : Nat := 2 ^ p.ramAw

/-- BASE, a byte address of the host (R91). -/
def Params.base (p : Params) : Nat := 2 ^ 20 * p.basePage

/-- A, the sine ROM address width (R9). -/
def romAddressWidth : Nat := 10

/-- P, the phase accumulator width (R9). -/
def phaseWidth : Nat := 32

/-- AMP, the tone amplitude in sample units (R9). -/
def amplitude : Nat := 16384

/-- NMAX_SPEC, the largest window of DETECT and ANALYZE (R9). -/
def maxWindow : Nat := 65535

/-- The ID register, "SWS1" (R3, R34). -/
def idWord : Word := 0x53575331#32

/-- The VERSION register (R3, R34). -/
def versionWord : Word := 0x00010000#32

/-- The byte at an offset of the RAM window after draw number `draw` (U1, U2). Free: it has no body
(notes/assumptions/1.md, notes/assumptions/2.md). -/
opaque freeByte (draw offset : Nat) : Byte

/-- The latched command after draw number `draw`, while no command is in flight (U4). Free: it has no body
(notes/assumptions/3.md). -/
opaque freeLatch (draw : Nat) : Machine.LatchedCommand

/-- The datapath registers after draw number `draw`, while no command is in flight (U4). Free: it has no body
(notes/assumptions/3.md). -/
opaque freeDatapath (draw : Nat) : Machine.Datapath

end Sys2Proof.Config
end

