-- ==== Sys2Proof/Machine/State.lean ====
section
/-! DEFINITION. The state of the block, as plain data, and its value after power-on reset (spec/10_state.md,
spec/20_memory.md, spec/70_reset_and_hazards.md R310, R312). INVENTORY.md, under State, lists every field with its
rule and its reset value. -/

namespace Sys2Proof.Machine

/-- The stored fields of CTRL (R36). SOFT_RESET and the reserved bits hold nothing. -/
structure Ctrl where
  irqEn : Bool
  fmap : Bool
deriving DecidableEq, Repr, Inhabited

/-- The stored fields of STATUS (R38). BUSY is the sequencer state `State.seq` (R32); the reserved bits hold nothing. -/
structure Status where
  done : Bool
  err : Bool
  bit : Bool
  hsMatch : Bool
  errcode : BitVec 4
deriving DecidableEq, Repr, Inhabited

/-- The argument and configuration registers (R41 to R43). -/
structure ConfigRegs where
  argAddr : Word
  argLen : Word
  fs : Word
  freq0 : Word
  freq1 : Word
  startFreq : Word
  tol : Word
  freqT : Word
deriving DecidableEq, Repr, Inhabited

/-- A result register pair X_LO, X_HI (R46). -/
structure Pair64 where
  lo : Word
  hi : Word
deriving DecidableEq, Repr, Inhabited

/-- The result registers (R44 to R47). -/
structure Results where
  ftw : Word
  tdK0 : Word
  tdK1 : Word
  tdRe0 : Pair64
  tdIm0 : Pair64
  tdRe1 : Pair64
  tdIm1 : Pair64
  faK : Word
  faFreq : Word
  faRe : Pair64
  faIm : Pair64
deriving DecidableEq, Repr, Inhabited

/-- The sequencer state SEQ (R32). -/
inductive Seq where
  /-- No command is in flight. -/
  | idle
  /-- One command is in flight. -/
  | busy
deriving DecidableEq, Repr, Inhabited

/-- The sample RAM: the bytes of the RAM window that hold a known value, keyed by byte offset from the block's base,
in one canonical form (`Memory.wf`). An unlisted byte is unspecified and reads as a free value (U1,
notes/assumptions/1.md). -/
abbrev Memory := List Host.Cell

/-- A host bus transfer at the block's ports (R30). A read ignores `pwdata` and `pstrb`. -/
structure Transfer where
  pwrite : Bool
  paddr : Offset
  pwdata : Word
  pstrb : BitVec 4
deriving DecidableEq, Repr, Inhabited

/-- The bus response of the last host transfer: the ports `pready`, `pslverr` and `prdata` (R30, R80, R85). -/
inductive Response where
  /-- No transfer since power-on. -/
  | none
  /-- A read accepted, with its data. -/
  | readOk (prdata : Word)
  /-- A write accepted. -/
  | writeOk
  /-- A read refused: `pslverr` = 1 and `prdata` = 0 (R85). -/
  | readError
  /-- A write refused: `pslverr` = 1 (R85). -/
  | writeError
deriving DecidableEq, Repr, Inhabited

/-- What moves the machine: a host transfer, the sequencer's turn, or a power-on reset (R15, R30, R310). -/
inductive Event where
  /-- The host performs one bus transfer (R80, R81). -/
  | transfer (t : Transfer)
  /-- The sequencer takes its step, if it has one (R145, R146). -/
  | sequencer
  /-- `rst_n` falls and rises (R310). -/
  | powerOn
deriving DecidableEq, Repr, Inhabited

/-- The whole machine. -/
structure State where
  /-- RAM_AW and BASE (R9, R91). -/
  params : Config.Params
  /-- CTRL (R36). -/
  ctrl : Ctrl
  /-- STATUS (R38). -/
  status : Status
  /-- ARG_ADDR to FREQ_T (R41 to R43). -/
  cfg : ConfigRegs
  /-- FTW, the TD_ and the FA_ registers (R44 to R47). -/
  res : Results
  /-- SEQ (R32). -/
  seq : Seq
  /-- LC, hidden (R49). -/
  lc : LatchedCommand
  /-- The datapath registers, hidden (R50). -/
  datapath : Datapath
  /-- The sample RAM (R53, R82). -/
  ram : Memory
  /-- The draw that the unlisted bytes of the sample RAM take their values from: the model's own field. -/
  ramDraw : Nat
  /-- The number of the next draw of free values: the model's own field. -/
  draws : Nat
  /-- The host's and the sequencer's moves still to come, the next one first (R15): the model's own field
  (notes/assumptions/4.md). -/
  events : List Event
  /-- The bus response of the last transfer (R30). -/
  response : Response
deriving DecidableEq, Repr

/-- Why the machine stops. -/
inductive Fault where
  /-- A command is in flight whose latched operands the issue checks of R143 refuse. Raised by the completion of TONE,
  DETECT and ANALYZE. No run reaches it: an issue latches only what the checks passed (R142), and no rule says what the
  datapath would do at a sample index that does not exist (R89) or with FS = 0. Safe: the machine stops where
  hardware has no such state (notes/assumptions/10.md). -/
  | latchNotAccepted
deriving DecidableEq, Repr

/-- Why an instruction has no meaning. -/
inductive Refusal where
  /-- The command has no meaning in this model yet. No arm of `exec` raises it now. Safe: the machine stops. -/
  | notModelled (mnemonic : String)
deriving DecidableEq, Repr

/-- CTRL after reset (R312). -/
def Ctrl.reset : Ctrl := ⟨false, false⟩

/-- STATUS after reset (R312). -/
def Status.reset : Status := ⟨false, false, false, false, 0#4⟩

/-- The argument and configuration registers after reset (R312). -/
def ConfigRegs.reset : ConfigRegs := ⟨0, 0, 0, 0, 0, 0, 0, 0⟩

/-- A result pair after reset (R312). -/
def Pair64.reset : Pair64 := ⟨0, 0⟩

/-- The result registers after reset (R312). -/
def Results.reset : Results :=
  ⟨0, 0, 0, Pair64.reset, Pair64.reset, Pair64.reset, Pair64.reset, 0, 0, Pair64.reset, Pair64.reset⟩

/-- LC right after power-on: the spec gives no value (U4); this one is notes/assumptions/3.md, and nothing reads it. -/
def LatchedCommand.reset : LatchedCommand := ⟨.nop, 0, 0, 0, 0, 0, 0, 0, 0, false⟩

/-- The datapath registers right after power-on: the spec gives no value (U4); this one is notes/assumptions/3.md, and
nothing reads it. -/
def Datapath.reset : Datapath := ⟨0, 0, 0, 0, 0, 0, 0, 0, 0, 0⟩

/-- The machine after a power-on reset that is draw number `draw` (R310, R312), with the hidden registers holding
`lc` and `datapath`. Nothing of the sample RAM is known. -/
def State.powerOn (p : Config.Params) (lc : LatchedCommand) (datapath : Datapath) (draw : Nat) : State where
  params := p
  ctrl := Ctrl.reset
  status := Status.reset
  cfg := ConfigRegs.reset
  res := Results.reset
  seq := .idle
  lc := lc
  datapath := datapath
  ram := []
  ramDraw := draw
  draws := draw + 1
  events := []
  response := .none

/-- The default block right after power-on, with no host transfer waiting. -/
def State.reset : State := State.powerOn Config.Params.default LatchedCommand.reset Datapath.reset 0

end Sys2Proof.Machine
end

