-- ==== Sys2Proof/Machine/Ops.lean ====
section
/-! DEFINITION. The named operations over the sample RAM and the registers, the command error (the block's only
exception), acceptance, completion and the two resets (spec/10_state.md, spec/20_memory.md, spec/40_sequencer.md,
spec/60_exceptions.md, spec/70_reset_and_hazards.md). -/

namespace Sys2Proof.Machine

open Sys2Proof.Config

/-! ### The sample RAM -/

/-- The canonical form of a sample RAM: offsets strictly rising. An unlisted byte holds no known value, so no listed
byte can equal it. -/
abbrev Memory.wf (m : Memory) : Prop := (m.map Prod.fst).Pairwise (· < ·)

/-- The byte listed at an offset. -/
def Memory.find : Memory → Nat → Option Byte
  | [], _ => none
  | (b, v) :: m, a => if a = b then some v else Memory.find m a

/-- Consecutive bytes from an offset, as listed cells. -/
def Memory.cells : Nat → List Byte → Memory
  | _, [] => []
  | a, b :: bs => (a, b) :: Memory.cells (a + 1) bs

/-- Consecutive bytes stored from offset `lo`. Every store to the sample RAM is one of these. -/
def Memory.store (m : Memory) (lo : Nat) (bs : List Byte) : Memory :=
  m.filter (fun c => decide (c.1 < lo)) ++ Memory.cells lo bs
    ++ m.filter (fun c => decide (lo + bs.length ≤ c.1))

/-- The first offset of the RAM window (R33). -/
def ramBase : Nat := 0x80000

/-- The offset of the low byte of sample `i` (R82). -/
def sampleOffset (i : Nat) : Nat := ramBase + 2 * i

/-- The offset just past the RAM window (R33, R86). -/
def ramEnd (p : Params) : Nat := ramBase + 2 * p.ramDepth

/-- One byte of the sample RAM: the listed one, else a free value (R90, U1). -/
def State.readByte (s : State) (a : Nat) : Byte := (s.ram.find a).getD (freeByte s.ramDraw a)

/-- `RAM[i]` (R14), little-endian (R82, R84). -/
def State.readSample (s : State) (i : Nat) : Sample :=
  s.readByte (sampleOffset i + 1) ++ s.readByte (sampleOffset i)

/-- `n` consecutive bytes from offset `a`, read in one pass over the listed cells: an unlisted byte is `free` of its
offset. On a RAM in canonical form each is the byte that `State.readByte` reads (`Laws.readRange_eq`). -/
def Memory.readRange (free : Nat → Byte) : (n a : Nat) → Memory → List Byte
  | 0, _, _ => []
  | n + 1, a, m =>
    match m.dropWhile (fun c => decide (c.1 < a)) with
    | [] => free a :: Memory.readRange free n (a + 1) []
    | (b, v) :: rest =>
      if b = a then v :: Memory.readRange free n (a + 1) rest
      else free a :: Memory.readRange free n (a + 1) ((b, v) :: rest)

/-- The samples that bytes make up, the low byte of each first (R82, R84). -/
def samplesOfBytes : List Byte → List Sample
  | lo :: hi :: bs => (hi ++ lo) :: samplesOfBytes bs
  | _ => []

/-- `RAM[addr .. addr + n - 1]`. -/
def State.readSamples (s : State) (addr n : Nat) : List Sample :=
  samplesOfBytes (s.ram.readRange (freeByte s.ramDraw) (2 * n) (sampleOffset addr))

/-- The two bytes of a sample, the low one first (R82, R84). -/
def sampleBytes (v : Sample) : List Byte := [v.extractLsb' 0 8, v.extractLsb' 8 8]

/-- `RAM[addr + n] <- vs[n]` for every n. -/
def State.storeSamples (s : State) (addr : Nat) (vs : List Sample) : State :=
  { s with ram := s.ram.store (sampleOffset addr) (vs.flatMap sampleBytes) }

/-- A read of word `j` of the RAM window: `{RAM[2*j+1], RAM[2*j]}` (R82). -/
def State.readRamWord (s : State) (j : Nat) : Word := s.readSample (2 * j + 1) ++ s.readSample (2 * j)

/-- A write of word `j` of the RAM window: both samples in one step (R82, R88). -/
def State.storeRamWord (s : State) (j : Nat) (v : Word) : State :=
  s.storeSamples (2 * j) [v.extractLsb' 0 16, v.extractLsb' 16 16]

/-- `RAM[addr .. addr + n - 1]` becomes unspecified, each byte a free value of draw `draw` (R311, U2). -/
def State.loseSamples (s : State) (addr n draw : Nat) : State :=
  { s with
    ram := s.ram.store (sampleOffset addr)
      ((List.range (2 * n)).map fun k => freeByte draw (sampleOffset addr + k)) }

end Sys2Proof.Machine

namespace Sys2Proof

/-! ### The register map -/

/-- The registers of R33, in the order of its table. -/
def Reg.all : List Reg :=
  [.id, .version, .params, .ctrl, .status, .cmd, .argAddr, .argLen, .fs, .freq0, .freq1, .startFreq, .tol, .freqT,
    .ftw, .tdK0, .tdK1] ++
  [.tdRe0Lo, .tdRe0Hi, .tdIm0Lo, .tdIm0Hi, .tdRe1Lo, .tdRe1Hi, .tdIm1Lo, .tdIm1Hi,
    .faK, .faFreq, .faReLo, .faReHi, .faImLo, .faImHi]

/-- The byte offset of a register (R33). -/
def Reg.offset : Reg → Nat
  | .id => 0x000
  | .version => 0x004
  | .params => 0x008
  | .ctrl => 0x00C
  | .status => 0x010
  | .cmd => 0x014
  | .argAddr => 0x018
  | .argLen => 0x01C
  | .fs => 0x020
  | .freq0 => 0x024
  | .freq1 => 0x028
  | .startFreq => 0x02C
  | .tol => 0x030
  | .freqT => 0x034
  | .ftw => 0x038
  | .tdK0 => 0x040
  | .tdK1 => 0x044
  | .tdRe0Lo => 0x048
  | .tdRe0Hi => 0x04C
  | .tdIm0Lo => 0x050
  | .tdIm0Hi => 0x054
  | .tdRe1Lo => 0x058
  | .tdRe1Hi => 0x05C
  | .tdIm1Lo => 0x060
  | .tdIm1Hi => 0x064
  | .faK => 0x070
  | .faFreq => 0x074
  | .faReLo => 0x078
  | .faReHi => 0x07C
  | .faImLo => 0x080
  | .faImHi => 0x084

/-- The access column of R33. -/
def Reg.access : Reg → Access
  | .ctrl => .rw
  | .status => .w1c
  | .cmd => .wo
  | .argAddr => .rw
  | .argLen => .rw
  | .fs => .rw
  | .freq0 => .rw
  | .freq1 => .rw
  | .startFreq => .rw
  | .tol => .rw
  | .freqT => .rw
  | .id => .ro
  | .version => .ro
  | .params => .ro
  | .ftw => .ro
  | .tdK0 => .ro
  | .tdK1 => .ro
  | .tdRe0Lo => .ro
  | .tdRe0Hi => .ro
  | .tdIm0Lo => .ro
  | .tdIm0Hi => .ro
  | .tdRe1Lo => .ro
  | .tdRe1Hi => .ro
  | .tdIm1Lo => .ro
  | .tdIm1Hi => .ro
  | .faK => .ro
  | .faFreq => .ro
  | .faReLo => .ro
  | .faReHi => .ro
  | .faImLo => .ro
  | .faImHi => .ro

/-- The register at a byte offset, if there is one. -/
def Reg.ofOffset (a : Nat) : Option Reg := Reg.all.find? fun r => r.offset == a

end Sys2Proof

namespace Sys2Proof.Machine

open Sys2Proof.Config

/-- A configuration or argument register written with a full word (R41 to R43). Other registers are not in this group. -/
def ConfigRegs.set (c : ConfigRegs) (r : Reg) (v : Word) : ConfigRegs :=
  match r with
  | .argAddr => { c with argAddr := v }
  | .argLen => { c with argLen := v }
  | .fs => { c with fs := v }
  | .freq0 => { c with freq0 := v }
  | .freq1 => { c with freq1 := v }
  | .startFreq => { c with startFreq := v }
  | .tol => { c with tol := v }
  | .freqT => { c with freqT := v }
  | _ => c

/-- The PARAMS register: `{0, P, A, 0, RAM_AW}` (R35). -/
def paramsWord (p : Params) : Word :=
  0#8 ++ BitVec.ofNat 8 phaseWidth ++ BitVec.ofNat 8 romAddressWidth ++ 0#3 ++ BitVec.ofNat 5 p.ramAw

/-- `trunc_64` of an integer in a result pair (R46). -/
def Pair64.ofInt (r : Int) : Pair64 :=
  ⟨(BitVec.ofInt 64 r).extractLsb' 0 32, (BitVec.ofInt 64 r).extractLsb' 32 32⟩

/-- The integer the host reads back from a result pair: `sext_64({X_HI, X_LO})` (R46). -/
def Pair64.toInt (p : Pair64) : Int := (p.hi ++ p.lo).toInt

/-! ### Platform address decoding -/

/-- The offset that a host byte address has in the block's 1 MiB window, if it is in the window (R91). -/
def windowOffset (p : Params) (a : Nat) : Option Offset :=
  if p.base ≤ a ∧ a < 2 ^ 20 + p.base then some (BitVec.ofNat 20 (a - p.base)) else none

/-- The host performs an access at a byte address of its own address space: the platform hands it to the block when
it falls in the block's window, after everything already waiting (R91, R92 (a)). -/
def State.hostAccess (s : State) (a : Nat) (pwrite : Bool) (pwdata : Word) (pstrb : BitVec 4) : State :=
  match windowOffset s.params a with
  | some o => { s with events := s.events ++ [.transfer ⟨pwrite, o, pwdata, pstrb⟩] }
  | none => s

/-! ### Issue, errors, acceptance and completion -/

/-- The number of a command error in STATUS.ERRCODE (R271). -/
def errorCode : CommandError → BitVec 4
  | .illegalOp => 1#4
  | .rsvdField => 2#4
  | .cfgFs => 3#4
  | .len => 4#4
  | .range => 5#4

/-- An issue first clears the previous outcome (R141). -/
def State.clearOutcome (s : State) : State :=
  { s with status := { s.status with done := false, err := false, errcode := 0#4 } }

/-- `raise Error(c)`: the block's only exception (R143, R270). It sets ERR and ERRCODE and nothing else; nothing is
saved and no address is entered (R275). -/
def State.raise (s : State) (e : CommandError) : State :=
  { s with status := { s.status with err := true, errcode := errorCode e } }

/-- The return from error state by the host: ERR and ERRCODE cleared (R276). -/
def State.clearError (s : State) : State :=
  { s with status := { s.status with err := false, errcode := 0#4 } }

/-- LC as an acceptance latches it, from the live registers (R142). -/
def latch (i : Instr) (s : State) : LatchedCommand where
  cmd := i
  addr := s.cfg.argAddr
  len := s.cfg.argLen
  fs := s.cfg.fs
  freq0 := s.cfg.freq0
  freq1 := s.cfg.freq1
  start := s.cfg.startFreq
  tol := s.cfg.tol
  freqT := s.cfg.freqT
  fmap := s.ctrl.fmap

/-- Acceptance (R142). -/
def State.accept (s : State) (i : Instr) : State := { s with lc := latch i s, seq := .busy }

/-- The end of the completion step (R146). From here on no command is in flight, so LC and the datapath registers are
unspecified and each takes a free value (U4, notes/assumptions/3.md). -/
def State.finish (s : State) : State :=
  { s with
    seq := .idle
    status := { s.status with done := true }
    lc := freeLatch s.draws
    datapath := freeDatapath s.draws
    draws := s.draws + 1 }

/-! ### Reset -/

/-- The sample RAM after a soft reset: the buffer of a TONE in flight is lost, every other word is kept (R311). -/
def State.abortRam (s : State) : State :=
  match s.seq, s.lc.cmd with
  | .busy, .tone _ => s.loseSamples s.lc.addr.toNat s.lc.len.toNat s.draws
  | _, _ => s

/-- Soft reset (R311, R312). -/
def State.softReset (s : State) : State :=
  { s with
    ctrl := Ctrl.reset
    status := Status.reset
    cfg := ConfigRegs.reset
    res := Results.reset
    seq := .idle
    lc := freeLatch s.draws
    datapath := freeDatapath s.draws
    ram := s.abortRam.ram
    draws := s.draws + 1 }

/-- Power-on reset of a running machine: everything as `State.powerOn` leaves it, the hidden registers and the sample
RAM free, the moves still to come kept (R310). -/
def State.powerOnReset (s : State) : State :=
  { State.powerOn s.params (freeLatch s.draws) (freeDatapath s.draws) s.draws with events := s.events }

end Sys2Proof.Machine
end

