-- ==== Sys2Proof/Machine/Operands.lean ====
section
/-! DEFINITION. The operands of a command and the checks on them at issue (spec/30_encoding.md R112, R113,
spec/40_sequencer.md R143, R144). Every operand is unsigned: `zext_32` is `toNat`. -/

namespace Sys2Proof.Machine

open Sys2Proof.Config

/-- The command reads a buffer and FS: TONE, DETECT and ANALYZE do, NOP does not (R143, R144). -/
def usesBuffer : Instr → Bool
  | .nop => false
  | .tone _ => true
  | .detect => true
  | .analyze => true

/-- The buffer length is one the command supports (R143 code 4). TONE and NOP have no limit (R144, R176). -/
def lengthSupported : Instr → Nat → Bool
  | .nop, _ => true
  | .tone _, _ => true
  | .detect, n => 1 ≤ n && n ≤ maxWindow
  | .analyze, n => 2 ≤ n && n ≤ maxWindow

/-- The issue checks of R143 that follow decoding, in their order. The sum `addr + n` is unbounded. -/
def checkOperands (depth : Nat) (i : Instr) (fs addr n : Nat) : Option CommandError :=
  if usesBuffer i && fs == 0 then some .cfgFs
  else if !lengthSupported i n then some .len
  else if usesBuffer i && decide (depth < addr + n) then some .range
  else none

/-- The issue checks on the live registers. -/
def checkIssue (i : Instr) (s : State) : Option CommandError :=
  checkOperands s.params.ramDepth i s.cfg.fs.toNat s.cfg.argAddr.toNat s.cfg.argLen.toNat

/-- The issue checks on the latched command. They hold of every command in flight (R142, R143). -/
def checkLatched (i : Instr) (s : State) : Option CommandError :=
  checkOperands s.params.ramDepth i s.lc.fs.toNat s.lc.addr.toNat s.lc.len.toNat

/-- The frequency of a TONE, in hertz: the register that FSEL selects (R112, R113, R176). -/
def toneFrequency (fsel : FreqSel) (lc : LatchedCommand) : Nat :=
  match fsel with
  | .freq0 => lc.freq0.toNat
  | .freq1 => lc.freq1.toNat
  | .start => lc.start.toNat
  | .freqT => lc.freqT.toNat

/-- The sample values x(0) .. x(N-1) of the command's buffer: `sext_16(RAM[LC.addr + n])` (R13, R200 of
spec/42_spectral.md). -/
def buffer (s : State) : List Int :=
  (s.readSamples s.lc.addr.toNat s.lc.len.toNat).map BitVec.toInt

/-- The issue of a decoded command: R141, then R143, then R142. -/
def issue (i : Instr) (s : State) : State :=
  match checkIssue i s with
  | some e => s.clearOutcome.raise e
  | none => s.clearOutcome.accept i

/-- A command's two steps. With no command in flight, `i` is being issued by a CMD write (R140 to R143). With a command
in flight, `i` is that command and the sequencer completes it: its effect, then the end of the command (R146). -/
def runCommand (i : Instr) (effect : State → State) (s : State) : Host.Outcome State Fault Refusal :=
  match s.seq with
  | .idle => .next (issue i s)
  | .busy =>
    match checkLatched i s with
    | none => .next (effect s).finish
    | some _ => .fault .latchNotAccepted

end Sys2Proof.Machine
end

