-- ==== Sys2Proof/Machine/Flags.lean ====
section
/-! DEFINITION. The flags of STATUS and CTRL: their words, the writes that set and clear them, the interrupt output
(spec/10_state.md R36 to R39, R52, spec/60_exceptions.md R280). -/

namespace Sys2Proof.Machine

/-- BUSY: 1 iff `SEQ = BUSY` (R32, R38). -/
def State.busy (s : State) : Bool := s.seq == .busy

/-- The word CTRL reads as: `{29'b0, 1'b0, FMAP, IRQ_EN}` (R37). -/
def ctrlWord (c : Ctrl) : Word := 0#30 ++ BitVec.ofBool c.fmap ++ BitVec.ofBool c.irqEn

/-- The word STATUS reads as (R38). -/
def State.statusWord (s : State) : Word :=
  0#20 ++ s.status.errcode ++ 0#3 ++ BitVec.ofBool s.status.hsMatch ++ BitVec.ofBool s.status.bit
    ++ BitVec.ofBool s.status.err ++ BitVec.ofBool s.status.done ++ BitVec.ofBool s.busy

/-- CTRL written without a soft reset (R37). -/
def ctrlOfWord (v : Word) : Ctrl := ⟨v.getLsbD 0, v.getLsbD 1⟩

/-- DONE cleared where bit 1 of the written word is 1 (R39). -/
def State.ackDone (s : State) (v : Word) : State :=
  if v.getLsbD 1 then { s with status := { s.status with done := false } } else s

/-- ERR and ERRCODE cleared where bit 2 of the written word is 1 (R39). -/
def State.ackError (s : State) (v : Word) : State := if v.getLsbD 2 then s.clearError else s

/-- A host write to STATUS (R39). -/
def State.writeStatus (s : State) (v : Word) : State := (s.ackDone v).ackError v

/-- The level interrupt output (R280). -/
def State.irq (s : State) : Bool := s.ctrl.irqEn && (s.status.done || s.status.err)

/-- BIT: the detector's decision, 1 iff the power at FREQ1's bin is strictly greater (R230, R231). -/
def bitFlag (p0 p1 : Int) : Bool := decide (p0 < p1)

/-- HS_MATCH: the handshake test on the unrounded frequency, the tolerance inclusive (R255). -/
def hsMatchFlag (k n halfN fs start tol : Nat) (fmap : Bool) : Bool :=
  if fmap then
    if halfN = 1 then decide (start ≤ tol)
    else decide (((k * fs : Nat) - (2 * (halfN - 1) * start : Nat) : Int).natAbs ≤ 2 * (halfN - 1) * tol)
  else decide (((k * fs : Nat) - (start * n : Nat) : Int).natAbs ≤ tol * n)

end Sys2Proof.Machine
end

