-- ==== Sys2Proof/Machine/Spectral.lean ====
section
/-! DEFINITION. The spectral kernel: Hann window, single-bin DFT, power and bin selection
(spec/42_spectral.md R201 to R208). Arithmetic is on unbounded integers (R12). -/

namespace Sys2Proof.Machine

/-- `widx(n, N)` for N >= 2 (R201). -/
def windowIndex (n len : Nat) : Nat := ((2048 * n + (len - 1)) / (2 * (len - 1))) % 1024

/-- `w(n, N)` (R201). -/
def windowCoeff (n len : Nat) : Int := if len = 1 then 32768 else 16384 - cosineRom (windowIndex n len)

/-- The windowed samples `xw(n)` from index n on (R203). `>>>` on Int rounds toward minus infinity (R12). -/
def windowed (len : Nat) : Nat → List Int → List Int
  | _, [] => []
  | n, x :: xs => (x * windowCoeff n len) >>> (15 : Nat) :: windowed len (n + 1) xs

/-- `tidx(k, n, N)` (R204). -/
def twiddleIndex (k n len : Nat) : Nat := ((2048 * ((k * n) % len) + len) / (2 * len)) % 1024

/-- The sum over n of `xw(n) * rom(tidx(k, n, N))`, from index n on (R204). -/
def correlate (rom : Nat → Int) (k len : Nat) : Nat → List Int → Int
  | _, [] => 0
  | n, x :: xs => x * rom (twiddleIndex k n len) + correlate rom k len (n + 1) xs

/-- `Re(k)` of a windowed buffer (R204). -/
def dftRe (k len : Nat) (xw : List Int) : Int := correlate cosineRom k len 0 xw

/-- `Im(k)` of a windowed buffer (R204). -/
def dftIm (k len : Nat) (xw : List Int) : Int := -correlate sineRom k len 0 xw

/-- The power of a bin from its two parts (R207). -/
def binPower (re im : Int) : Int := re * re + im * im

/-- `P(k)` of a windowed buffer (R207). -/
def dftPower (k len : Nat) (xw : List Int) : Int := binPower (dftRe k len xw) (dftIm k len xw)

/-- The frequency axis of R206 times N: N times the continuous frequency value of bin k, in hertz. -/
def binAxisTimesLen (k len fs : Nat) : Int :=
  if k ≤ (len - 1) / 2 then (k * fs : Int) else ((k : Int) - len) * fs

/-- `bin_index(F, N, FS)`: the bin nearest F Hz (R208). -/
def binIndex (f len fs : Nat) : Nat := min ((2 * f * len + fs - 1) / (2 * fs)) ((len - 1) / 2)

end Sys2Proof.Machine
end

