-- ==== Sys2Proof/Machine/Analyzer.lean ====
section
/-! DEFINITION. The frequency analyzer: ANALYZE (spec/44_frequency_analyzer.md R250 to R255). -/

namespace Sys2Proof.Machine

/-- The peak search of R250 over `fuel` more bins from bin k on: the strict test keeps the lowest index of a tie
(R251). -/
def peakSearch (power : Nat → Int) : (kmax : Nat) → (best : Int) → (k fuel : Nat) → Nat
  | kmax, _, _, 0 => kmax
  | kmax, best, k, fuel + 1 =>
    if best < power k then peakSearch power k (power k) (k + 1) fuel
    else peakSearch power kmax best (k + 1) fuel

/-- The peak bin among bins 0 .. K-1 (R250, R251). -/
def peakBin (power : Nat → Int) (halfN : Nat) : Nat := peakSearch power 0 (power 0) 1 (halfN - 1)

/-- `freq_word(k, N, K, FS, FMAP)` (R253, R254). -/
def freqWord (k n halfN fs : Nat) (fmap : Bool) : Word :=
  if fmap then
    if halfN = 1 then 0#32 else BitVec.ofNat 32 ((128 * k * fs) / (halfN - 1))
  else BitVec.ofNat 32 ((256 * k * fs) / n)

/-- The registers that an ANALYZE writes, all in one step (R48, R250): the peak bin, its DFT, its frequency word and
the handshake flag. -/
def State.setAnalysis (s : State) (kmax : Nat) (re im : Int) (freq : Word) (hs : Bool) : State :=
  { s with
    status := { s.status with hsMatch := hs }
    res := { s.res with
      faK := BitVec.ofNat 32 kmax
      faRe := Pair64.ofInt re
      faIm := Pair64.ofInt im
      faFreq := freq } }

/-- The effect of ANALYZE at completion (R250). -/
def analyzeEffect (s : State) : State :=
  let n := s.lc.len.toNat
  let halfN := n / 2
  let xw := windowed n 0 (buffer s)
  let kmax := peakBin (fun k => dftPower k n xw) halfN
  s.setAnalysis kmax (dftRe kmax n xw) (dftIm kmax n xw)
    (freqWord kmax n halfN s.lc.fs.toNat s.lc.fmap)
    (hsMatchFlag kmax n halfN s.lc.fs.toNat s.lc.start.toNat s.lc.tol.toNat s.lc.fmap)

/-- ANALYZE (R250). -/
def execAnalyze (s : State) : Host.Outcome State Fault Refusal := runCommand .analyze analyzeEffect s

end Sys2Proof.Machine
end

