-- ==== Sys2Proof/Machine/Detector.lean ====
section
/-! DEFINITION. The tone detector: DETECT (spec/43_tone_detector.md R230, R231). -/

namespace Sys2Proof.Machine

/-- The registers that a DETECT writes, all in one step (R48, R230): the bins, the DFT of each and the decision. -/
def State.setDetection (s : State) (k0 k1 : Nat) (re0 im0 re1 im1 : Int) : State :=
  { s with
    status := { s.status with bit := bitFlag (binPower re0 im0) (binPower re1 im1) }
    res := { s.res with
      tdK0 := BitVec.ofNat 32 k0
      tdK1 := BitVec.ofNat 32 k1
      tdRe0 := Pair64.ofInt re0
      tdIm0 := Pair64.ofInt im0
      tdRe1 := Pair64.ofInt re1
      tdIm1 := Pair64.ofInt im1 } }

/-- The effect of DETECT at completion (R230). -/
def detectEffect (s : State) : State :=
  let n := s.lc.len.toNat
  let xw := windowed n 0 (buffer s)
  let k0 := binIndex s.lc.freq0.toNat n s.lc.fs.toNat
  let k1 := binIndex s.lc.freq1.toNat n s.lc.fs.toNat
  s.setDetection k0 k1 (dftRe k0 n xw) (dftIm k0 n xw) (dftRe k1 n xw) (dftIm k1 n xw)

/-- DETECT (R230). -/
def execDetect (s : State) : Host.Outcome State Fault Refusal := runCommand .detect detectEffect s

end Sys2Proof.Machine
end

