-- ==== Sys2Proof/Machine/Nco.lean ====
section
/-! DEFINITION. The NCO synthesizer: the tuning word, the phase accumulator and TONE (spec/41_nco.md R174 to R176). -/

namespace Sys2Proof.Machine

/-- The frequency tuning word for f Hz at sample rate FS Hz (R174). (Here and in the other formulas a large constant
is the left factor, so that unfolding a product stops at its variable.) -/
def tuningWord (f fs : Nat) : BitVec 32 := BitVec.ofNat 32 ((2 ^ 33 * (f % fs) + fs) / (2 * fs))

/-- The ROM index of a phase: its top 10 bits (R175). -/
def romIndex (phase : BitVec 32) : Nat := (phase.extractLsb' 22 10).toNat

/-- The samples of a tone from a phase on: the loop of R176, the phase stepping modulo 2^32 after each (R175). -/
def toneSamples (ftw : BitVec 32) : BitVec 32 → Nat → List Sample
  | _, 0 => []
  | phase, n + 1 => BitVec.ofInt 16 (sineRom (romIndex phase)) :: toneSamples ftw (phase + ftw) n

/-- What a TONE writes, all in one step (R48, R89, R176): its samples and the tuning word it used. -/
def State.setTone (s : State) (addr : Nat) (vs : List Sample) (ftw : Word) : State :=
  { s.storeSamples addr vs with res := { s.res with ftw := ftw } }

/-- The effect of TONE at completion (R176). -/
def toneEffect (fsel : FreqSel) (s : State) : State :=
  let ftw := tuningWord (toneFrequency fsel s.lc) s.lc.fs.toNat
  s.setTone s.lc.addr.toNat (toneSamples ftw 0#32 s.lc.len.toNat) ftw

/-- TONE (R176). -/
def execTone (fsel : FreqSel) (s : State) : Host.Outcome State Fault Refusal :=
  runCommand (.tone fsel) (toneEffect fsel) s

end Sys2Proof.Machine
end

