-- ==== Sys2Proof/Machine/Sequencer.lean ====
section
/-! DEFINITION. NOP (spec/40_sequencer.md R150). -/

namespace Sys2Proof.Machine

/-- NOP: its issue reads no register but CMD (R144), its completion has no effect of its own (R146, R150). -/
def execNop (s : State) : Host.Outcome State Fault Refusal := runCommand .nop id s

end Sys2Proof.Machine
end

