-- ==== Sys2Proof/Machine/Dispatch.lean ====
section
/-! DEFINITION. One arm per command: its meaning. With no command in flight an arm is the issue of the command, with
one in flight it is its completion (`runCommand`). -/

namespace Sys2Proof.Machine

def exec (i : Instr) (s : State) : Host.Outcome State Fault Refusal :=
  match i with
  | .nop => Sys2Proof.Machine.execNop s
  | .tone fsel => Sys2Proof.Machine.execTone fsel s
  | .detect => Sys2Proof.Machine.execDetect s
  | .analyze => Sys2Proof.Machine.execAnalyze s

end Sys2Proof.Machine
end

