-- ==== Sys2Proof/Machine/Bus.lean ====
section
/-! DEFINITION. Host bus transfers and the sequencer's turn (spec/10_state.md R33 to R51, spec/20_memory.md R80 to R90,
spec/40_sequencer.md R140, R145). A transfer refused by the bus answers `pslverr` and changes nothing else (R85). -/

namespace Sys2Proof.Machine

open Sys2Proof.Config

/-- What a byte offset names in the block's window (R33, R82, R86). -/
inductive Target where
  /-- A register. -/
  | reg (r : Reg)
  /-- Word j of the RAM window. -/
  | ramWord (j : Nat)
  /-- Nothing: unmapped or misaligned. -/
  | unmapped
deriving DecidableEq, Repr

/-- The address map (R33, R86). A misaligned offset names nothing (R83). -/
def target (p : Params) (a : Nat) : Target :=
  if a % 4 ≠ 0 then .unmapped
  else if a < ramBase then
    match Reg.ofOffset a with
    | some r => .reg r
    | none => .unmapped
  else if a < ramEnd p then .ramWord ((a - ramBase) / 4)
  else .unmapped

/-- The value a register reads as (R33 to R49). CMD reads 0 (R40). -/
def State.readReg (s : State) : Reg → Word
  | .id => idWord
  | .version => versionWord
  | .params => paramsWord s.params
  | .ctrl => ctrlWord s.ctrl
  | .status => s.statusWord
  | .cmd => 0#32
  | .argAddr => s.cfg.argAddr
  | .argLen => s.cfg.argLen
  | .fs => s.cfg.fs
  | .freq0 => s.cfg.freq0
  | .freq1 => s.cfg.freq1
  | .startFreq => s.cfg.startFreq
  | .tol => s.cfg.tol
  | .freqT => s.cfg.freqT
  | .ftw => s.res.ftw
  | .tdK0 => s.res.tdK0
  | .tdK1 => s.res.tdK1
  | .tdRe0Lo => s.res.tdRe0.lo
  | .tdRe0Hi => s.res.tdRe0.hi
  | .tdIm0Lo => s.res.tdIm0.lo
  | .tdIm0Hi => s.res.tdIm0.hi
  | .tdRe1Lo => s.res.tdRe1.lo
  | .tdRe1Hi => s.res.tdRe1.hi
  | .tdIm1Lo => s.res.tdIm1.lo
  | .tdIm1Hi => s.res.tdIm1.hi
  | .faK => s.res.faK
  | .faFreq => s.res.faFreq
  | .faReLo => s.res.faRe.lo
  | .faReHi => s.res.faRe.hi
  | .faImLo => s.res.faIm.lo
  | .faImHi => s.res.faIm.hi

/-- The port `pslverr` of a response (R85). -/
def Response.slverr : Response → Bool
  | .none => false
  | .readOk _ => false
  | .writeOk => false
  | .readError => true
  | .writeError => true

/-- The port `prdata` of the response to a read (R80, R85). The response to a write carries none. -/
def Response.prdata : Response → Option Word
  | .none => .none
  | .readOk v => some v
  | .writeOk => .none
  | .readError => some 0#32
  | .writeError => .none

/-- The state after a transfer that answers `r` and changes nothing else. -/
def State.respond (s : State) (r : Response) : State := { s with response := r }

/-- A host read (R80): no state changes. The RAM window is closed while a command is in flight (R87). -/
def busRead (a : Nat) (s : State) : State :=
  match target s.params a with
  | .unmapped => s.respond .readError
  | .reg r => s.respond (.readOk (s.readReg r))
  | .ramWord j => if s.busy then s.respond .readError else s.respond (.readOk (s.readRamWord j))

/-- A host write to CMD (R140): refused while busy, else the issue of the word. A word that does not decode raises its
error (R114, R143). -/
def writeCmd (w : Word) (s : State) : Host.Outcome State Fault Refusal :=
  if s.busy then .next (s.respond .writeError)
  else match decode w with
    | .error e => .next ((s.respond .writeOk).clearOutcome.raise e)
    | .ok i => exec i (s.respond .writeOk)

/-- A host write to CTRL (R37). -/
def writeCtrl (v : Word) (s : State) : State :=
  if v.getLsbD 2 then (s.softReset).respond .writeOk
  else if s.busy then s.respond .writeError
  else { s with ctrl := ctrlOfWord v, response := .writeOk }

/-- A host write to an argument or configuration register (R41 to R43, R87). -/
def writeConfig (r : Reg) (v : Word) (s : State) : State :=
  if s.busy then s.respond .writeError else { s with cfg := s.cfg.set r v, response := .writeOk }

/-- A host write to a register (R37 to R43, R51). -/
def writeReg (r : Reg) (v : Word) (s : State) : Host.Outcome State Fault Refusal :=
  match r.access with
  | .ro => .next (s.respond .writeOk)
  | .wo => writeCmd v s
  | .w1c => .next ((s.writeStatus v).respond .writeOk)
  | .rw => if r = .ctrl then .next (writeCtrl v s) else .next (writeConfig r v s)

/-- A host write (R81): refused unless every byte strobe is set (R83). -/
def busWrite (a : Nat) (strb : BitVec 4) (v : Word) (s : State) : Host.Outcome State Fault Refusal :=
  if strb ≠ 0xF#4 then .next (s.respond .writeError)
  else match target s.params a with
    | .unmapped => .next (s.respond .writeError)
    | .reg r => writeReg r v s
    | .ramWord j =>
      if s.busy then .next (s.respond .writeError) else .next ((s.storeRamWord j v).respond .writeOk)

/-- One host transfer, atomic (R80, R81, R88). -/
def performTransfer (t : Transfer) (s : State) : Host.Outcome State Fault Refusal :=
  if t.pwrite then busWrite t.paddr.toNat t.pstrb t.pwdata s else .next (busRead t.paddr.toNat s)

/-- The sequencer's turn: completion while a command is in flight, nothing while idle (R145, R295). -/
def sequencerTurn (s : State) : Host.Outcome State Fault Refusal :=
  match s.seq with
  | .idle => .next s
  | .busy => exec s.lc.cmd s

/-- One move of the host, the sequencer or the power supply (R15). -/
def performEvent (e : Event) (s : State) : Host.Outcome State Fault Refusal :=
  match e with
  | .transfer t => performTransfer t s
  | .sequencer => sequencerTurn s
  | .powerOn => .next s.powerOnReset

end Sys2Proof.Machine
end

