-- ==== Sys2Proof/Machine/Step.lean ====
section
/-! DEFINITION. One step of the machine: the next move in `events`, or the sequencer's when none is left (R15, R145). -/

namespace Sys2Proof.Machine

/-- One step. With no move waiting the sequencer takes its turn, so a command in flight completes (R147). -/
def step (s : State) : Host.Outcome State Fault Refusal :=
  match s.events with
  | [] => sequencerTurn s
  | e :: rest => performEvent e { s with events := rest }

/-- The state with a host write of the word `w` (of `nbits` bits) to CMD as the next move, and the block able to take
it: no command in flight (R140). -/
def State.withFetchWord (s : State) (nbits w : Nat) : State :=
  { s with
    seq := .idle
    events := .transfer ⟨true, BitVec.ofNat 20 (Reg.offset .cmd), BitVec.ofNat 32 (w % 2 ^ nbits), 0xF#4⟩
      :: s.events }

end Sys2Proof.Machine
end

