-- ==== Sys2Proof/Machine/Script.lean ====
section
/-! DEFINITION. The host script: each statement and pseudo-instruction as the bus transfers it stands for
(spec/30_encoding.md R118, R119). -/

namespace Sys2Proof.Machine

/-- A full-word write at a byte offset. -/
def Script.wrAt (offset : Nat) (v : Word) : Event := .transfer ⟨true, BitVec.ofNat 20 offset, v, 0xF#4⟩

/-- A read at a byte offset. APB4 drives `pstrb` low on a read (R83). -/
def Script.rdAt (offset : Nat) : Event := .transfer ⟨false, BitVec.ofNat 20 offset, 0#32, 0#4⟩

/-- `WR <reg>, <value>` (R118). -/
def Script.wr (r : Reg) (v : Word) : Event := Script.wrAt r.offset v

/-- `RD <reg>` (R118). -/
def Script.rd (r : Reg) : Event := Script.rdAt r.offset

/-- `WRRAM <j>, <s0>, <s1>` for an even sample index j: sample j gets s0 and sample j+1 gets s1 (R118). -/
def Script.wrRam (j : Nat) (s0 s1 : Sample) : Event := Script.wrAt (ramBase + 4 * (j / 2)) (s1 ++ s0)

/-- `RDRAM <j>` (R118). -/
def Script.rdRam (j : Nat) : Event := Script.rdAt (ramBase + 4 * (j / 2))

/-- `WAITIDLE` in a run where `polls` reads of STATUS still find BUSY = 1 before the sequencer completes (R118, R147). -/
def Script.waitIdle (polls : Nat) : List Event :=
  List.replicate polls (Script.rd .status) ++ [.sequencer, Script.rd .status]

/-- The CMD write of a command, then WAITIDLE (R119). -/
def Script.command (i : Instr) (polls : Nat) : List Event := Script.wr .cmd (encode i) :: Script.waitIdle polls

/-- The writes of a command's buffer (R119). -/
def Script.args (addr len : Word) : List Event := [Script.wr .argAddr addr, Script.wr .argLen len]

/-- Pseudo-instruction NOP (R119). -/
def Script.nop (polls : Nat) : List Event := Script.command .nop polls

/-- Pseudo-instruction TONE (R119). -/
def Script.tone (fsel : FreqSel) (addr len : Word) (polls : Nat) : List Event :=
  Script.args addr len ++ Script.command (.tone fsel) polls

/-- Pseudo-instruction DETECT (R119). -/
def Script.detect (addr len : Word) (polls : Nat) : List Event :=
  Script.args addr len ++ Script.command .detect polls

/-- Pseudo-instruction ANALYZE (R119). -/
def Script.analyze (addr len : Word) (polls : Nat) : List Event :=
  Script.args addr len ++ Script.command .analyze polls

/-- Pseudo-instruction CONFIG (R119). -/
def Script.config (fs f0 f1 start tol : Word) : List Event :=
  [Script.wr .fs fs, Script.wr .freq0 f0, Script.wr .freq1 f1, Script.wr .startFreq start, Script.wr .tol tol]

/-- Pseudo-instruction ACK: clears DONE and ERR (R119). -/
def Script.ack : List Event := [Script.wr .status 0x6#32]

/-- Pseudo-instruction SRESET (R119). -/
def Script.sreset : List Event := [Script.wr .ctrl 0x4#32]

end Sys2Proof.Machine
end

