-- ==== Sys2Proof/Safety.lean ====
section
/-! DEFINITION. What a safe state is, what a host can see of a state, and the values of the spec's sums and powers in
closed form: the terms in which the statements are made. -/

namespace Sys2Proof.Safety

open Sys2Proof.Machine

/-- STATUS as every run keeps it (R38, R52, R149, R271). -/
structure StatusOk (s : State) : Prop where
  notBoth : ¬(s.status.done = true ∧ s.status.err = true)
  codeIffErr : s.status.errcode = 0#4 ↔ s.status.err = false
  codeDefined : s.status.errcode.toNat ≤ 5
  clearWhileBusy : s.seq = .busy → s.status.done = false ∧ s.status.err = false

/-- The latched command of a command in flight equals the live registers (R49) and passed the issue checks (R143). -/
structure LatchOk (s : State) : Prop where
  live : s.seq = .busy → s.lc = latch s.lc.cmd s
  accepted : s.seq = .busy → checkLatched s.lc.cmd s = none

/-- The sample RAM is in canonical form and lists offsets of the RAM window only (R53). -/
structure RamOk (s : State) : Prop where
  wf : s.ram.wf
  inWindow : ∀ c ∈ s.ram, ramBase ≤ c.1 ∧ c.1 < ramEnd s.params

/-- A result pair holds an integer of magnitude below 2^45 (R46). -/
abbrev PairOk (p : Pair64) : Prop := p.toInt.natAbs < 2 ^ 45

/-- The result registers hold values of the ranges that R45, R46 and R47 give. -/
structure ResultsOk (s : State) : Prop where
  tdK0 : s.res.tdK0.toNat < 32768
  tdK1 : s.res.tdK1.toNat < 32768
  faK : s.res.faK.toNat < 32768
  tdRe0 : PairOk s.res.tdRe0
  tdIm0 : PairOk s.res.tdIm0
  tdRe1 : PairOk s.res.tdRe1
  tdIm1 : PairOk s.res.tdIm1
  faRe : PairOk s.res.faRe
  faIm : PairOk s.res.faIm

/-- The invariant of the machine. -/
structure Inv (s : State) : Prop where
  status : StatusOk s
  latch : LatchOk s
  ram : RamOk s
  results : ResultsOk s

/-- What can be seen of a state: all but the datapath registers, and but LC while no command is in flight
(R49, R50, R312). -/
def observe (s : State) : State :=
  { s with
    datapath := Datapath.reset
    lc := match s.seq with
      | .idle => LatchedCommand.reset
      | .busy => s.lc }

/-- An outcome seen through `observe`. -/
def observeOutcome : Host.Outcome State Fault Refusal → Host.Outcome State Fault Refusal
  | .next s => .next (observe s)
  | .fault f => .fault f
  | .refused r => .refused r

/-- The machine with one more move waiting before all others. -/
def present (s : State) (e : Event) : State := { s with events := e :: s.events }

/-- A host write as a move. -/
def hostWrite (a : Offset) (strb : BitVec 4) (v : Word) : Event := .transfer ⟨true, a, v, strb⟩

/-- A host read as a move. -/
def hostRead (a : Offset) (strb : BitVec 4) (v : Word) : Event := .transfer ⟨false, a, v, strb⟩

/-- A full-word write to a register as a move. -/
def hostWriteReg (r : Reg) (v : Word) : Event := hostWrite (BitVec.ofNat 20 r.offset) 0xF#4 v

/-- A transfer that performs a soft reset if the bus accepts it: a full-word write to CTRL with bit 2 set (R37). -/
def isSoftReset (t : Transfer) : Bool :=
  t.pwrite && t.pstrb == 0xF#4 && t.paddr.toNat == Reg.offset .ctrl && t.pwdata.getLsbD 2

/-- A move that resets the block. -/
def isReset : Event → Bool
  | .transfer t => isSoftReset t
  | .sequencer => false
  | .powerOn => true

/-- The sample value x(n) of the latched buffer (R13, R200). -/
def sampleValue (s : State) (n : Nat) : Int := (s.readSample (s.lc.addr.toNat + n)).toInt

/-- xw(n) of the latched buffer, as the floor of R203. -/
def windowedValue (s : State) (n : Nat) : Int := sampleValue s n * windowCoeff n s.lc.len.toNat / 32768

/-- Re(k) of the latched buffer, as the sum of R204. -/
def reSum (s : State) (k : Nat) : Int :=
  ∑ n ∈ Finset.range s.lc.len.toNat, windowedValue s n * cosineRom (twiddleIndex k n s.lc.len.toNat)

/-- Im(k) of the latched buffer, as the sum of R204. -/
def imSum (s : State) (k : Nat) : Int :=
  -∑ n ∈ Finset.range s.lc.len.toNat, windowedValue s n * sineRom (twiddleIndex k n s.lc.len.toNat)

/-- P(k) of the latched buffer (R207). -/
def powerSum (s : State) (k : Nat) : Int := reSum s k ^ 2 + imSum s k ^ 2

/-- What every completion leaves alone and what every completion sets (R146): `t` is idle and DONE, and its parameters,
CTRL, ERR, ERRCODE, arguments, configuration, waiting moves and bus response are those of `s`. LC and the datapath
registers, which nothing reads while idle, may hold anything (R312). -/
structure Completed (s t : State) : Prop where
  seq : t.seq = .idle
  done : t.status.done = true
  err : t.status.err = s.status.err
  errcode : t.status.errcode = s.status.errcode
  params : t.params = s.params
  ctrl : t.ctrl = s.ctrl
  cfg : t.cfg = s.cfg
  events : t.events = s.events
  response : t.response = s.response

/-- The registers as a reset leaves them, read by the host (R33, R312). -/
def resetRegs (s : State) : Prop :=
  ∀ r : Reg, s.readReg r =
    match r with
    | .id => 0x53575331#32
    | .version => 0x00010000#32
    | .params => BitVec.ofNat 32 (0x00200A00 + s.params.ramAw)
    | _ => 0#32

end Sys2Proof.Safety
end

