-- ==== Sys2Proof/Certificates/Slice0/Obligations.lean ====
section
/-! DEFINITION. The statements for the provers. Each docstring names the rules of spec/ that its statement
formalises. A move is put before a machine by `Safety.present`, so that `step (present s e)` is the move `e` made in
state `s`. -/

open Sys2Proof Sys2Proof.Machine Sys2Proof.Safety

/-! ### Decoding and encoding -/

/-- R114: decoding is total, and its tests in order decide between the four commands and the two error codes. The
fields are written as numbers: OP = `w % 16`, FSEL = `w / 16 % 4`, RSVD = `w / 64`. The configuration checks follow
decoding: in any configuration of an idle block a word that does not decode raises its decoding error. -/
def Obligations.DecodeFollowsTheFieldTests : Prop :=
  ∀ w : Word,
    (4 ≤ w.toNat % 16 → decode w = .error .illegalOp) ∧
    (w.toNat % 16 < 4 → w.toNat / 64 ≠ 0 → decode w = .error .rsvdField) ∧
    (w.toNat % 16 < 4 → w.toNat / 64 = 0 → w.toNat % 16 ≠ 1 → w.toNat / 16 % 4 ≠ 0 →
      decode w = .error .rsvdField) ∧
    (w.toNat / 64 = 0 → w.toNat % 16 = 0 → w.toNat / 16 % 4 = 0 → decode w = .ok .nop) ∧
    (w.toNat / 64 = 0 → w.toNat % 16 = 1 →
      ∃ f : FreqSel, f.number = w.toNat / 16 % 4 ∧ decode w = .ok (.tone f)) ∧
    (w.toNat / 64 = 0 → w.toNat % 16 = 2 → w.toNat / 16 % 4 = 0 → decode w = .ok .detect) ∧
    (w.toNat / 64 = 0 → w.toNat % 16 = 3 → w.toNat / 16 % 4 = 0 → decode w = .ok .analyze) ∧
    (∀ (s : State) (e : CommandError), s.seq = .idle → decode w = .error e →
      ∃ t, step (present s (hostWriteReg .cmd w)) = .next t ∧ t.status.err = true ∧
        t.status.errcode = if e = .illegalOp then 1#4 else 2#4)

/-- R115: a word selects a command iff its masked bits are the row's match, FSEL being TONE's free field; no two rows
match one word, and a word that matches no row is an error. -/
def Obligations.WordsSelectCommandsByMatchAndMask : Prop :=
  ∀ w : Word,
    (decode w = .ok .nop ↔ w &&& 0xFFFFFFFF#32 = 0x00000000#32) ∧
    ((∃ f, decode w = .ok (.tone f)) ↔ w &&& 0xFFFFFFCF#32 = 0x00000001#32) ∧
    (decode w = .ok .detect ↔ w &&& 0xFFFFFFFF#32 = 0x00000002#32) ∧
    (decode w = .ok .analyze ↔ w &&& 0xFFFFFFFF#32 = 0x00000003#32) ∧
    (∀ f, decode w = .ok (.tone f) → f.number = w.toNat / 16 % 4) ∧
    (opcodeRows.filter fun r => r.selects w).length ≤ 1 ∧
    ((∃ e, decode w = .error e) ↔ ∀ r ∈ opcodeRows, r.selects w = false)

/-- R110 to R114: decoding and encoding are inverse, on all 2^32 words and all commands: a word decodes to a command
exactly when it is that command's encoding. -/
def Obligations.DecodeEncodeAgreeOnEveryWord : Prop :=
  (∀ (w : Word) (i : Instr), decode w = .ok i ↔ w = encode i) ∧
  (∀ (w : Word), wordWellFormed w = true ↔ ∃ i : Instr, i.wellFormed = true ∧ encode i = w)

/-- R111, R112 and the examples of spec/95_test_vectors.md: some command words, written out. -/
def Obligations.SampleWordsDecodeAsTheSpecSays : Prop :=
  decode 0x00000000#32 = .ok .nop ∧ decode 0x00000001#32 = .ok (.tone .freq0) ∧
  decode 0x00000011#32 = .ok (.tone .freq1) ∧ decode 0x00000021#32 = .ok (.tone .start) ∧
  decode 0x00000031#32 = .ok (.tone .freqT) ∧ decode 0x00000002#32 = .ok .detect ∧
  decode 0x00000003#32 = .ok .analyze ∧ decode 0x00000044#32 = .error .illegalOp ∧
  decode 0x00000040#32 = .error .rsvdField ∧ decode 0x00000012#32 = .error .rsvdField

/-! ### Issue -/

/-- R141, R142: a decoded command that passes every check is accepted: the outcome flags are cleared, LC latches the
live registers, SEQ becomes BUSY, and nothing else changes. -/
def Obligations.CommandIsAcceptedWhenEveryCheckPasses : Prop :=
  ∀ (i : Instr) (s : State), s.seq = .idle →
    (i ≠ .nop → s.cfg.fs.toNat ≠ 0) →
    (i = .detect → 1 ≤ s.cfg.argLen.toNat ∧ s.cfg.argLen.toNat ≤ 65535) →
    (i = .analyze → 2 ≤ s.cfg.argLen.toNat ∧ s.cfg.argLen.toNat ≤ 65535) →
    (i ≠ .nop → s.cfg.argAddr.toNat + s.cfg.argLen.toNat ≤ s.params.ramDepth) →
    exec i s = .next { s with
      status := { s.status with done := false, err := false, errcode := 0#4 }
      seq := .busy
      lc := { cmd := i, addr := s.cfg.argAddr, len := s.cfg.argLen, fs := s.cfg.fs, freq0 := s.cfg.freq0
              freq1 := s.cfg.freq1, start := s.cfg.startFreq, tol := s.cfg.tol, freqT := s.cfg.freqT
              fmap := s.ctrl.fmap } }

/-- R143: the issue checks of a CMD write run in their order and the first that fails raises its code: 1 or 2 for a word
that does not decode, 3 for FS = 0, 4 for a length outside the command's range, 5 for a buffer that leaves the RAM, the
sum taken without wrap-around. ERR and ERRCODE take the error and DONE stays 0; nothing else changes. When none fails,
no error is raised. -/
def Obligations.IssueChecksRaiseTheFirstFailingCode : Prop :=
  ∀ (w : Word) (s : State), s.seq = .idle →
    let raises (c : BitVec 4) : Prop :=
      step (present s (hostWriteReg .cmd w)) = .next { s with
        response := .writeOk
        status := { s.status with done := false, err := true, errcode := c } }
    let badLength (i : Instr) : Prop :=
      (i = .detect ∧ ¬(1 ≤ s.cfg.argLen.toNat ∧ s.cfg.argLen.toNat ≤ 65535)) ∨
      (i = .analyze ∧ ¬(2 ≤ s.cfg.argLen.toNat ∧ s.cfg.argLen.toNat ≤ 65535))
    let badRange : Prop := s.params.ramDepth < s.cfg.argAddr.toNat + s.cfg.argLen.toNat
    (decode w = .error .illegalOp → raises 1#4) ∧
    (decode w = .error .rsvdField → raises 2#4) ∧
    (∀ i, decode w = .ok i → i ≠ .nop → s.cfg.fs.toNat = 0 → raises 3#4) ∧
    (∀ i, decode w = .ok i → s.cfg.fs.toNat ≠ 0 → badLength i → raises 4#4) ∧
    (∀ i, decode w = .ok i → i ≠ .nop → s.cfg.fs.toNat ≠ 0 → ¬badLength i → badRange → raises 5#4) ∧
    (∀ i, decode w = .ok i → (i ≠ .nop → s.cfg.fs.toNat ≠ 0 ∧ ¬badLength i ∧ ¬badRange) →
      ∃ t, step (present s (hostWriteReg .cmd w)) = .next t ∧ t.seq = .busy ∧ t.status.err = false)

/-- R144: NOP reads no register but CMD: its issue is accepted in every idle state, whatever the configuration. -/
def Obligations.NopIssueIsAlwaysAccepted : Prop :=
  ∀ s : State, s.seq = .idle →
    ∃ t, exec .nop s = .next t ∧ t.seq = .busy ∧ t.lc.cmd = .nop ∧
      t.status = { s.status with done := false, err := false, errcode := 0#4 } ∧
      t.cfg = s.cfg ∧ t.ctrl = s.ctrl ∧ t.res = s.res ∧ t.ram = s.ram ∧ t.params = s.params ∧
      t.datapath = s.datapath ∧ t.events = s.events ∧ t.response = s.response

/-- R114, R270: a CMD write that does not decode clears the old outcome and raises its error, and does nothing else. -/
def Obligations.UndecodableWordRaisesItsErrorAndNothingElse : Prop :=
  ∀ (s : State) (w : Word) (e : CommandError), s.seq = .idle → decode w = .error e →
    (e = .illegalOp ∨ e = .rsvdField) ∧
    step (present s (hostWriteReg .cmd w)) = .next { s with
      response := .writeOk
      status := { s.status with done := false, err := true, errcode := if e = .illegalOp then 1#4 else 2#4 } }

/-! ### Completion of each command -/

/-- R146, R150: a NOP in flight completes: SEQ becomes IDLE and DONE becomes 1; no flag, result or RAM byte else
changes. -/
def Obligations.NopCompletesWithNoOtherEffect : Prop :=
  ∀ s : State, s.seq = .busy →
    ∃ t, exec .nop s = .next t ∧ Completed s t ∧ t.status = { s.status with done := true } ∧ t.res = s.res ∧
      ∀ a, t.readByte a = s.readByte a

/-- R175, R176 with R171 and R174: a TONE in flight whose operands the issue checks accept completes. Sample n is the
ROM word of the top 10 bits of phase `n * FTW mod 2^32`, FTW takes the tuning word used, BIT and HS_MATCH and the other
results stay, and every RAM byte outside the buffer reads as before. -/
def Obligations.ToneCompletesWithTheSamplesOfItsPhase : Prop :=
  ∀ (fsel : FreqSel) (s : State), s.seq = .busy → s.lc.fs.toNat ≠ 0 →
    s.lc.addr.toNat + s.lc.len.toNat ≤ s.params.ramDepth →
    let f := match fsel with
      | .freq0 => s.lc.freq0.toNat
      | .freq1 => s.lc.freq1.toNat
      | .start => s.lc.start.toNat
      | .freqT => s.lc.freqT.toNat
    let ftw := (2 ^ 33 * (f % s.lc.fs.toNat) + s.lc.fs.toNat) / (2 * s.lc.fs.toNat) % 2 ^ 32
    ∃ t, exec (.tone fsel) s = .next t ∧ Completed s t ∧ t.status = { s.status with done := true } ∧
      t.res = { s.res with ftw := BitVec.ofNat 32 ftw } ∧
      (∀ n, n < s.lc.len.toNat →
        (t.readSample (s.lc.addr.toNat + n)).toInt = sineRom (n * ftw % 2 ^ 32 / 2 ^ 22)) ∧
      (∀ a, a < sampleOffset s.lc.addr.toNat ∨ sampleOffset (s.lc.addr.toNat + s.lc.len.toNat) ≤ a →
        t.readByte a = s.readByte a)

/-- R230, R231: a DETECT in flight whose operands the issue checks accept completes. BIT is 1 iff the power at FREQ1's
bin is strictly greater; the TD_ registers hold the two bins and their exact DFT values; nothing else changes. -/
def Obligations.DetectCompletesWithTheComparisonOfItsTwoBins : Prop :=
  ∀ s : State, s.seq = .busy → s.ram.wf → s.lc.fs.toNat ≠ 0 →
    1 ≤ s.lc.len.toNat → s.lc.len.toNat ≤ 65535 →
    s.lc.addr.toNat + s.lc.len.toNat ≤ s.params.ramDepth →
    let k0 := min ((2 * s.lc.freq0.toNat * s.lc.len.toNat + s.lc.fs.toNat - 1) / (2 * s.lc.fs.toNat))
      ((s.lc.len.toNat - 1) / 2)
    let k1 := min ((2 * s.lc.freq1.toNat * s.lc.len.toNat + s.lc.fs.toNat - 1) / (2 * s.lc.fs.toNat))
      ((s.lc.len.toNat - 1) / 2)
    ∃ t, exec .detect s = .next t ∧ Completed s t ∧
      t.status = { s.status with done := true, bit := decide (powerSum s k1 > powerSum s k0) } ∧
      t.res.tdK0.toNat = k0 ∧ t.res.tdK1.toNat = k1 ∧
      t.res.tdRe0.toInt = reSum s k0 ∧ t.res.tdIm0.toInt = imSum s k0 ∧
      t.res.tdRe1.toInt = reSum s k1 ∧ t.res.tdIm1.toInt = imSum s k1 ∧
      t.res.ftw = s.res.ftw ∧ t.res.faK = s.res.faK ∧ t.res.faFreq = s.res.faFreq ∧
      t.res.faRe = s.res.faRe ∧ t.res.faIm = s.res.faIm ∧
      ∀ a, t.readByte a = s.readByte a

/-- R250, R251, R255: an ANALYZE in flight whose operands the issue checks accept completes. FA_K is the least bin of
greatest power among bins 0 .. N div 2 - 1; FA_RE and FA_IM are its exact DFT, FA_FREQ its frequency word on the axis
that FMAP selects; HS_MATCH is the exact inclusive handshake test; nothing else changes. -/
def Obligations.AnalyzeCompletesWithTheLowestPeakBin : Prop :=
  ∀ s : State, s.seq = .busy → s.ram.wf → s.lc.fs.toNat ≠ 0 →
    2 ≤ s.lc.len.toNat → s.lc.len.toNat ≤ 65535 →
    s.lc.addr.toNat + s.lc.len.toNat ≤ s.params.ramDepth →
    let n := s.lc.len.toNat
    let K := n / 2
    ∃ t k, exec .analyze s = .next t ∧ Completed s t ∧
      k < K ∧ (∀ j, j < K → powerSum s j ≤ powerSum s k) ∧ (∀ j, j < k → powerSum s j < powerSum s k) ∧
      t.res.faK.toNat = k ∧ t.res.faRe.toInt = reSum s k ∧ t.res.faIm.toInt = imSum s k ∧
      t.res.faFreq = freqWord k n K s.lc.fs.toNat s.lc.fmap ∧
      t.status.hsMatch = (match s.lc.fmap, decide (K = 1) with
        | false, _ => decide (|(k * s.lc.fs.toNat : Int) - s.lc.start.toNat * n| ≤ s.lc.tol.toNat * n)
        | true, true => decide (s.lc.start.toNat ≤ s.lc.tol.toNat)
        | true, false => decide (|(k * s.lc.fs.toNat : Int) - 2 * ((K : Int) - 1) * s.lc.start.toNat|
            ≤ 2 * ((K : Int) - 1) * s.lc.tol.toNat)) ∧
      t.status.bit = s.status.bit ∧
      t.res.ftw = s.res.ftw ∧ t.res.tdK0 = s.res.tdK0 ∧ t.res.tdK1 = s.res.tdK1 ∧
      t.res.tdRe0 = s.res.tdRe0 ∧ t.res.tdIm0 = s.res.tdIm0 ∧
      t.res.tdRe1 = s.res.tdRe1 ∧ t.res.tdIm1 = s.res.tdIm1 ∧
      ∀ a, t.readByte a = s.readByte a

/-! ### A step -/

/-- R140: a CMD write of a block with a command in flight is refused and changes nothing. A full-word CMD write of an
idle block runs the command its word decodes to: the step is `exec` of it, on the state whose bus response is an
accepted write. A word that does not decode clears the old outcome and raises its error in that same step. -/
def Obligations.CmdWriteRunsTheDecodedCommand : Prop :=
  ∀ (s : State) (w : Word),
    (s.seq = .busy → step (present s (hostWriteReg .cmd w)) = .next { s with response := .writeError }) ∧
    (∀ i, s.seq = .idle → decode w = .ok i →
      step (present s (hostWriteReg .cmd w)) = exec i { s with response := .writeOk }) ∧
    (∀ e, s.seq = .idle → decode w = .error e →
      step (present s (hostWriteReg .cmd w)) = .next (({ s with response := .writeOk } : State).clearOutcome.raise e))

/-- R145: the sequencer's only step is the completion of the command in flight: its turn is `exec` of that command while
one is in flight, and changes nothing while none is. That a step with no move left is the sequencer's turn is the model's
choice (notes/assumptions/4.md). -/
def Obligations.SequencerStepsExactlyWhileACommandIsInFlight : Prop :=
  ∀ s : State,
    (s.seq = .busy →
      step (present s .sequencer) = exec s.lc.cmd s ∧ (s.events = [] → step s = exec s.lc.cmd s)) ∧
    (s.seq = .idle → step (present s .sequencer) = .next s ∧ (s.events = [] → step s = .next s))

/-- R110, R140: a command word placed by `withFetchWord`, the model's stand-in for the host's CMD write
(notes/assumptions/5.md), is the one the very next step runs, from every state. -/
def Obligations.FetchedWordIsTheCommandRun : Prop :=
  ∀ (s : State) (i : Instr),
    decodeTableWord 32 (encode i).toNat = some i ∧
    step (s.withFetchWord 32 (encode i).toNat) = exec i { s with seq := .idle, response := .writeOk }

/-! ### Host reads and writes -/

/-- R80 with R33, R82, R83, R86, R87: a host read changes no state of the block. It answers an error, data 0, when it
is misaligned, unmapped, or in the RAM window while a command is in flight; else the register, or the two samples of the
RAM word, whatever the byte strobes. -/
def Obligations.HostReadAnswersAndChangesNothing : Prop :=
  ∀ (s : State) (a : Offset) (strb : BitVec 4) (v : Word),
    let answers (r : Response) : Prop := step (present s (hostRead a strb v)) = .next { s with response := r }
    let depth := s.params.ramDepth
    (a.toNat % 4 ≠ 0 → answers .readError) ∧
    (a.toNat < 0x80000 → (∀ r : Reg, r.offset ≠ a.toNat) → answers .readError) ∧
    (0x80000 + 2 * depth ≤ a.toNat → answers .readError) ∧
    (0x80000 ≤ a.toNat → s.seq = .busy → answers .readError) ∧
    (∀ r : Reg, r.offset = a.toNat → answers (.readOk (s.readReg r))) ∧
    (∀ j, 2 * j < depth → a.toNat = 0x80000 + 4 * j → s.seq = .idle →
      answers (.readOk (s.readSample (2 * j + 1) ++ s.readSample (2 * j))))

/-- R81, R83, R85, R86, R87: a host write is refused, changing nothing but the bus response, when it is not a full
aligned word, when its offset is unmapped, and, while a command is in flight, when it goes to the RAM window, CMD, an
argument or configuration register, or CTRL with bit 2 clear. -/
def Obligations.RefusedWriteChangesNothing : Prop :=
  ∀ (s : State) (a : Offset) (strb : BitVec 4) (v : Word),
    let refused : Prop := step (present s (hostWrite a strb v)) = .next { s with response := .writeError }
    (strb ≠ 0xF#4 → refused) ∧
    (a.toNat % 4 ≠ 0 → refused) ∧
    (a.toNat < 0x80000 → (∀ r : Reg, r.offset ≠ a.toNat) → refused) ∧
    (0x80000 + 2 * s.params.ramDepth ≤ a.toNat → refused) ∧
    (s.seq = .busy → 0x80000 ≤ a.toNat → refused) ∧
    (s.seq = .busy → ∀ r ∈ [Reg.cmd, .argAddr, .argLen, .fs, .freq0, .freq1, .startFreq, .tol, .freqT],
      r.offset = a.toNat → refused) ∧
    (s.seq = .busy → Reg.offset .ctrl = a.toNat → v.getLsbD 2 = false → refused)

/-- R85, R88: an error response and a change of state exclude each other: whatever the transfer, a step that answers an
error leaves every field but the bus response as it was. -/
def Obligations.ErrorResponseLeavesTheBlockUnchanged : Prop :=
  ∀ (s t : State) (tr : Transfer), step (present s (.transfer tr)) = .next t → t.response.slverr = true →
    t = { s with response := if tr.pwrite then .writeError else .readError } ∧
    (tr.pwrite = false → t.response.prdata = some 0#32)

/-- R82: word j of the RAM window of an idle block reads as sample 2j in bits 15:0 and sample 2j+1 in bits 31:16. A
full-word write stores both samples in one step and changes nothing else; the word read back is the word written. -/
def Obligations.RamWindowWriteStoresBothSamples : Prop :=
  ∀ (s : State) (j : Nat) (v : Word), s.seq = .idle → 2 * j < s.params.ramDepth →
    (∃ w : Word, step (present s (hostRead (BitVec.ofNat 20 (0x80000 + 4 * j)) 0#4 0#32)) =
        .next { s with response := .readOk w } ∧
      w.extractLsb' 0 16 = s.readSample (2 * j) ∧ w.extractLsb' 16 16 = s.readSample (2 * j + 1)) ∧
    ∃ t, step (present s (hostWrite (BitVec.ofNat 20 (0x80000 + 4 * j)) 0xF#4 v)) = .next t ∧
      t.readSample (2 * j) = v.extractLsb' 0 16 ∧ t.readSample (2 * j + 1) = v.extractLsb' 16 16 ∧
      (∀ a, a < 0x80000 + 4 * j ∨ 0x80000 + 4 * j + 4 ≤ a → t.readByte a = s.readByte a) ∧
      (∃ m, t = { s with ram := m, response := .writeOk }) ∧
      step (present t (hostRead (BitVec.ofNat 20 (0x80000 + 4 * j)) 0#4 0#32)) =
        .next { t with response := .readOk v }

/-- R41, R42 (and of R43 what these say): an argument or configuration register of an idle block takes any 32-bit value
and reads it back unchanged, and no other register and nothing else changes; a write while a command is in flight is
refused; the reset value is 0. -/
def Obligations.ConfigurationRegisterHoldsWhatIsWritten : Prop :=
  ∀ (s : State) (v : Word),
    ∀ r ∈ [Reg.argAddr, .argLen, .fs, .freq0, .freq1, .startFreq, .tol, .freqT],
      (s.seq = .idle →
        ∃ t, step (present s (hostWriteReg r v)) = .next t ∧ t.readReg r = v ∧
          (∀ r' : Reg, r' ≠ r → t.readReg r' = s.readReg r') ∧
          (∃ c, t = { s with cfg := c, response := .writeOk })) ∧
      (s.seq = .busy → step (present s (hostWriteReg r v)) = .next { s with response := .writeError }) ∧
      State.reset.readReg r = 0#32

/-- R51: a full-word write to a read-only register is accepted and ignored, busy or not. The read-only and reserved bits
of CTRL and STATUS do nothing when written, and the reserved bits read 0. -/
def Obligations.ReadOnlyRegisterWriteIsIgnored : Prop :=
  ∀ (s : State) (v v' : Word),
    (∀ r ∈ [Reg.id, .version, .params, .ftw, .tdK0, .tdK1, .tdRe0Lo, .tdRe0Hi, .tdIm0Lo, .tdIm0Hi, .tdRe1Lo, .tdRe1Hi,
      .tdIm1Lo, .tdIm1Hi, .faK, .faFreq, .faReLo, .faReHi, .faImLo, .faImHi],
      step (present s (hostWriteReg r v)) = .next { s with response := .writeOk }) ∧
    ((∀ b < 3, v.getLsbD b = v'.getLsbD b) →
      step (present s (hostWriteReg .ctrl v)) = step (present s (hostWriteReg .ctrl v'))) ∧
    ((∀ b ∈ [1, 2], v.getLsbD b = v'.getLsbD b) →
      step (present s (hostWriteReg .status v)) = step (present s (hostWriteReg .status v'))) ∧
    (s.readReg .ctrl).extractLsb' 2 30 = 0#30 ∧
    (s.readReg .status).extractLsb' 5 3 = 0#3 ∧ (s.readReg .status).extractLsb' 12 20 = 0#20

/-- R39: a full-word write to STATUS is accepted, busy or not. Bit 1 clears DONE, bit 2 clears ERR and ERRCODE, and no
other bit does anything. -/
def Obligations.StatusWriteClearsDoneAndErr : Prop :=
  ∀ (s : State) (v : Word),
    step (present s (hostWriteReg .status v)) = .next { s with
      response := .writeOk
      status := { s.status with
        done := s.status.done && !v.getLsbD 1
        err := s.status.err && !v.getLsbD 2
        errcode := if v.getLsbD 2 then 0#4 else s.status.errcode } }

/-- R37: a full-word write to CTRL with bit 2 clear takes IRQ_EN and FMAP from bits 0 and 1 of an idle block and nothing
else, and is refused while busy; a write with bit 2 set performs the soft reset whatever SEQ is, after which CTRL reads 0; CTRL reads as
`{30'b0, FMAP, IRQ_EN}`. -/
def Obligations.CtrlWriteSetsEnablesOrResets : Prop :=
  ∀ (s : State) (v : Word),
    (v.getLsbD 2 = false → s.seq = .idle →
      step (present s (hostWriteReg .ctrl v)) = .next { s with
        ctrl := ⟨v.getLsbD 0, v.getLsbD 1⟩
        response := .writeOk }) ∧
    (v.getLsbD 2 = false → s.seq = .busy →
      step (present s (hostWriteReg .ctrl v)) = .next { s with response := .writeError }) ∧
    (v.getLsbD 2 = true →
      step (present s (hostWriteReg .ctrl v)) = .next { s.softReset with response := .writeOk } ∧
      s.softReset.readReg .ctrl = 0#32) ∧
    (s.readReg .ctrl).toNat = (if s.ctrl.irqEn then 1 else 0) + (if s.ctrl.fmap then 2 else 0)

/-- R38: the word STATUS reads as, field by field: BUSY, DONE, ERR, BIT, HS_MATCH and ERRCODE at their bits, the
reserved bits 0. -/
def Obligations.StatusReadsItsFieldsAtTheirBits : Prop :=
  ∀ s : State,
    let w := s.readReg .status
    w.getLsbD 0 = decide (s.seq = .busy) ∧ w.getLsbD 1 = s.status.done ∧ w.getLsbD 2 = s.status.err ∧
    w.getLsbD 3 = s.status.bit ∧ w.getLsbD 4 = s.status.hsMatch ∧ w.extractLsb' 5 3 = 0#3 ∧
    w.extractLsb' 8 4 = s.status.errcode ∧ w.extractLsb' 12 20 = 0#20

/-- R34, R35: the hardwired registers, whatever the state: ID, VERSION and the fields of PARAMS. Writes to them are
ignored. (R40: CMD reads 0. R9: RAM_AW is 8..18.) -/
def Obligations.HardwiredRegistersReadTheirConstants : Prop :=
  ∀ s : State,
    s.readReg .id = 0x53575331#32 ∧ s.readReg .version = 0x00010000#32 ∧ s.readReg .cmd = 0#32 ∧
    ((s.readReg .params).extractLsb' 0 5).toNat = s.params.ramAw ∧
    (s.readReg .params).extractLsb' 5 3 = 0#3 ∧ (s.readReg .params).extractLsb' 8 8 = 10#8 ∧
    (s.readReg .params).extractLsb' 16 8 = 32#8 ∧ (s.readReg .params).extractLsb' 24 8 = 0#8 ∧
    8 ≤ s.params.ramAw ∧ s.params.ramAw ≤ 18 ∧
    (∀ v : Word, ∀ r ∈ [Reg.id, .version, .params],
      step (present s (hostWriteReg r v)) = .next { s with response := .writeOk })

/-- R91: the platform hands the block exactly the accesses of its 1 MiB window, at their offsets from BASE; that they go
after the moves already waiting is the model's choice (notes/assumptions/4.md, notes/assumptions/7.md). -/
def Obligations.HostAccessReachesTheBlockByItsWindow : Prop :=
  ∀ (s : State) (a : Nat) (w : Bool) (v : Word) (strb : BitVec 4),
    (s.params.base % 2 ^ 20 = 0) ∧
    (∀ o, o < 2 ^ 20 → a = s.params.base + o →
      ∃ p : Offset, p.toNat = o ∧
        s.hostAccess a w v strb = { s with events := s.events ++ [.transfer ⟨w, p, v, strb⟩] }) ∧
    ((a < s.params.base ∨ s.params.base + 2 ^ 20 ≤ a) → s.hostAccess a w v strb = s)

/-! ### Reset -/

/-- R310, R312: the state after power-on: every register reads its reset value, SEQ is IDLE, `irq` is 0, and every
byte of the sample RAM is unspecified, for every RAM_AW; and it holds of `State.reset`. That an unspecified byte is the
free value of a fresh draw is the model's choice (notes/assumptions/1.md). -/
def Obligations.PowerOnLeavesTheResetValues : Prop :=
  (∀ s : State, ∃ t, step (present s .powerOn) = .next t ∧ resetRegs t ∧ t.seq = .idle ∧ t.irq = false ∧
    t.params = s.params ∧ t.events = s.events ∧ t.ramDraw = s.draws ∧
    ∀ a, t.readByte a = Config.freeByte t.ramDraw a) ∧
  resetRegs State.reset ∧ State.reset.seq = .idle ∧ State.reset.irq = false ∧
  ∀ a, State.reset.readByte a = Config.freeByte State.reset.ramDraw a

/-- R311: a full-word write to CTRL with bit 2 set is accepted whatever SEQ is and resets every register. It aborts the
command in flight, so SEQ is IDLE. A RAM byte keeps its value unless a TONE was in flight and the byte is in its buffer;
such a byte is unspecified, and that it is then a free value is the model's choice (notes/assumptions/2.md). -/
def Obligations.SoftResetKeepsAllRamButAnAbortedTone : Prop :=
  ∀ (s : State) (v : Word), v.getLsbD 2 = true →
    let aborted (a : Nat) : Prop :=
      (s.seq = .busy ∧ ∃ f, s.lc.cmd = .tone f) ∧
        sampleOffset s.lc.addr.toNat ≤ a ∧ a < sampleOffset (s.lc.addr.toNat + s.lc.len.toNat)
    ∃ t, step (present s (hostWriteReg .ctrl v)) = .next t ∧ t.response = .writeOk ∧ resetRegs t ∧
      t.seq = .idle ∧ t.irq = false ∧ t.params = s.params ∧ t.events = s.events ∧
      (∀ a, ¬aborted a → t.readByte a = s.readByte a) ∧
      (∀ a, aborted a → t.readByte a = Config.freeByte s.draws a)

/-! ### The interrupt -/

/-- R280: `irq` is the level `IRQ_EN and (DONE or ERR)` of what CTRL and STATUS read; a CTRL write of an idle block with
bit 2 clear masks or raises it at once, and of a busy block does neither; a CMD write of an idle block drops it unless
the word raises an error; a STATUS write of ones to DONE and ERR, and a reset, drop it. -/
def Obligations.IrqIsALevelOfCtrlAndStatus : Prop :=
  ∀ s : State,
    (s.irq = true ↔ (s.readReg .ctrl).getLsbD 0 = true ∧
      ((s.readReg .status).getLsbD 1 = true ∨ (s.readReg .status).getLsbD 2 = true)) ∧
    (∀ v : Word, s.seq = .idle → v.getLsbD 2 = false →
      ∃ t, step (present s (hostWriteReg .ctrl v)) = .next t ∧
        t.irq = (v.getLsbD 0 && (s.status.done || s.status.err))) ∧
    (∀ w : Word, s.seq = .idle →
      ∃ t, step (present s (hostWriteReg .cmd w)) = .next t ∧ t.irq = (s.ctrl.irqEn && t.status.err)) ∧
    (∀ v : Word, s.seq = .busy → v.getLsbD 2 = false →
      ∃ t, step (present s (hostWriteReg .ctrl v)) = .next t ∧ t.irq = s.irq) ∧
    (∀ v : Word, v.getLsbD 1 = true → v.getLsbD 2 = true →
      ∃ t, step (present s (hostWriteReg .status v)) = .next t ∧ t.irq = false) ∧
    (∀ e : Event, isReset e = true → ∃ t, step (present s e) = .next t ∧ t.irq = false)

/-- R280, R310: what takes `irq` down. When `irq` falls in a step, the step was a host write, accepted, to STATUS, CTRL or
CMD, or a power-on reset. -/
def Obligations.IrqFallsOnlyByTheHost : Prop :=
  ∀ s t : State, step s = .next t → s.irq = true → t.irq = false →
    (∃ rest, s.events = .powerOn :: rest) ∨
    (∃ r ∈ [Reg.status, .ctrl, .cmd], ∃ a v rest,
      s.events = hostWrite a 0xF#4 v :: rest ∧ a.toNat = r.offset ∧ t.response = .writeOk)

/-! ### Whole-machine rules -/

/-- The invariant holds right after power-on. -/
def Obligations.ResetMeetsTheInvariant : Prop :=
  Inv State.reset ∧
  ∀ (p : Config.Params) (lc : LatchedCommand) (dp : Datapath) (d : Nat), Inv (State.powerOn p lc dp d)

/-- Every step keeps the invariant, from every state that meets it: STATUS coherent (R38, R52), LC equal to the live
registers and within the issue checks while a command is in flight (R49, R143), the RAM canonical and inside its window
(R53), the results within their bounds (R45 to R47, R205). -/
def Obligations.EveryStepKeepsTheInvariant : Prop :=
  ∀ s t : State, Inv s → step s = .next t → Inv t

/-- R146: no command can fail once it has been accepted: from every state that meets the invariant a step gives a next
state, never a fault and never a refusal. -/
def Obligations.NoStepStopsTheMachine : Prop :=
  ∀ s : State, Inv s → ∃ t, step s = .next t

/-- R32: SEQ becomes BUSY only when a CMD write is accepted, and becomes IDLE only at completion or at reset; it reads as
STATUS.BUSY, and is IDLE after reset. -/
def Obligations.SeqChangesOnlyByAcceptanceCompletionAndReset : Prop :=
  (∀ s : State, (s.readReg .status).getLsbD 0 = true ↔ s.seq = .busy) ∧ State.reset.seq = .idle ∧
  ∀ s t : State, step s = .next t →
    (s.seq = .idle → t.seq = .busy →
      ∃ a v i rest, s.events = hostWrite a 0xF#4 v :: rest ∧ a.toNat = Reg.offset .cmd ∧
        decode v = .ok i ∧ t.lc.cmd = i ∧ checkIssue i s = none) ∧
    (s.seq = .busy → t.seq = .idle →
      (s.events = [] ∨ ∃ rest, s.events = .sequencer :: rest) ∧ t.status.done = true ∨
      ∃ e rest, s.events = e :: rest ∧ isReset e = true ∧ t.status = Status.reset)

/-- R48, R44: a result register changes only at the completion of the command that writes it, or at a reset: FTW by
TONE, the TD_ registers and BIT by DETECT, the FA_ registers and HS_MATCH by ANALYZE. -/
def Obligations.ResultsChangeOnlyAtTheirCompletionOrReset : Prop :=
  ∀ s t : State, step s = .next t →
    let completes (p : Instr → Prop) : Prop :=
      s.seq = .busy ∧ p s.lc.cmd ∧ (s.events = [] ∨ ∃ rest, s.events = .sequencer :: rest)
    let resets : Prop := ∃ e rest, s.events = e :: rest ∧ isReset e = true
    (t.res.ftw ≠ s.res.ftw → completes (fun i => ∃ f, i = .tone f) ∨ resets) ∧
    ((t.res.tdK0, t.res.tdK1, t.res.tdRe0, t.res.tdIm0, t.res.tdRe1, t.res.tdIm1, t.status.bit) ≠
      (s.res.tdK0, s.res.tdK1, s.res.tdRe0, s.res.tdIm0, s.res.tdRe1, s.res.tdIm1, s.status.bit) →
      completes (fun i => i = .detect) ∨ resets) ∧
    ((t.res.faK, t.res.faFreq, t.res.faRe, t.res.faIm, t.status.hsMatch) ≠
      (s.res.faK, s.res.faFreq, s.res.faRe, s.res.faIm, s.status.hsMatch) →
      completes (fun i => i = .analyze) ∨ resets)

/-- R89, R90: a byte of the sample RAM changes only by a host write to its word of the RAM window, by the completion of
a TONE whose buffer holds it, by a soft reset that aborts such a TONE, or by power-on. -/
def Obligations.RamBytesChangeOnlyByTheirWriters : Prop :=
  ∀ (s t : State) (b : Nat), step s = .next t → t.readByte b ≠ s.readByte b →
    let inBuffer : Prop := s.seq = .busy ∧ (∃ f, s.lc.cmd = .tone f) ∧
      sampleOffset s.lc.addr.toNat ≤ b ∧ b < sampleOffset (s.lc.addr.toNat + s.lc.len.toNat)
    (∃ a v rest, s.events = hostWrite a 0xF#4 v :: rest ∧ s.seq = .idle ∧ a.toNat ≤ b ∧ b < a.toNat + 4) ∨
    (inBuffer ∧ (s.events = [] ∨ ∃ rest, s.events = .sequencer :: rest)) ∨
    (inBuffer ∧ ∃ tr rest, s.events = .transfer tr :: rest ∧ isSoftReset tr = true) ∨
    (∃ rest, s.events = .powerOn :: rest)

/-- R87, R149: while a command is in flight no host transfer but a soft reset disturbs it: the command stays in flight,
and LC, the RAM, the configuration, CTRL and every result stay as they are. -/
def Obligations.HostCannotDisturbACommandInFlight : Prop :=
  ∀ (s : State) (tr : Transfer), s.seq = .busy → isSoftReset tr = false →
    ∃ t, step (present s (.transfer tr)) = .next t ∧ t.seq = .busy ∧ t.lc = s.lc ∧ t.ram = s.ram ∧
      t.ramDraw = s.ramDraw ∧ t.draws = s.draws ∧ t.cfg = s.cfg ∧ t.ctrl = s.ctrl ∧ t.res = s.res ∧
      t.status.bit = s.status.bit ∧ t.status.hsMatch = s.status.hsMatch ∧ t.params = s.params ∧ t.events = s.events

/-- R92 (b), (d): the effect of a command does not depend on how many host transfers come between its acceptance and its
completion: after any transfers that are no soft reset, the completion leaves the RAM, the results, BIT and HS_MATCH that
an immediate completion would have left. -/
def Obligations.CommandEffectIsIndependentOfTheInterleaving : Prop :=
  ∀ (s u : State) (ts : List Transfer), s.seq = .busy → (∀ tr ∈ ts, isSoftReset tr = false) →
    exec s.lc.cmd s = .next u →
    ∃ v, Sys2Proof.core.run (ts.length + 1) { s with events := ts.map Event.transfer ++ .sequencer :: s.events } =
        Host.Outcome.next (φ := Fault) (ρ := Refusal) v ∧
      v.ram = u.ram ∧ v.ramDraw = u.ramDraw ∧ v.res = u.res ∧ v.status.bit = u.status.bit ∧
      v.status.hsMatch = u.status.hsMatch ∧ v.seq = .idle ∧ v.status.done = true

/-- R146, R147: a command in flight completes in every run that holds no reset, at the latest when no move is left (then
it is the sequencer's turn: notes/assumptions/4.md). -/
def Obligations.CommandInFlightCompletes : Prop :=
  ∀ s : State, Inv s → s.seq = .busy → (∀ e ∈ s.events, isReset e = false) →
    ∃ k t, k ≤ s.events.length + 1 ∧ Sys2Proof.core.run k s = Host.Outcome.next (φ := Fault) (ρ := Refusal) t ∧
      t.seq = .idle ∧ t.status.done = true

/-- R49, R50, R312: the hidden registers are never observable, whatever values the model gives them
(notes/assumptions/3.md). Two states that differ only in the datapath registers,
and in LC while no command is in flight, take the same step, to states that again differ only there. -/
def Obligations.HiddenRegistersAreNeverObservable : Prop :=
  ∀ s t : State, observe s = observe t → observeOutcome (step s) = observeOutcome (step t)

/-- R9: no step changes the parameters of the block. -/
def Obligations.NoStepChangesTheParameters : Prop :=
  ∀ s t : State, step s = .next t → t.params = s.params

/-! ### The arithmetic of the three units -/

/-- R171, R172: the quarter-wave symmetries of the sine ROM, its end values, its bound, and the cosine read. -/
def Obligations.SineRomIsQuarterWaveSymmetric : Prop :=
  (∀ i, i ≤ 256 → sineRom (512 - i) = sineRom i) ∧
  (∀ i, i < 512 → sineRom (512 + i) = -sineRom i) ∧
  (∀ i, i < 1024 → |sineRom i| ≤ 16384) ∧
  (∀ i, i < 1024 → cosineRom i = sineRom ((i + 256) % 1024)) ∧
  sineRom 0 = 0 ∧ sineRom 256 = 16384 ∧ sineRom 512 = 0 ∧ sineRom 768 = -16384 ∧
  cosineRom 0 = 16384 ∧ cosineRom 256 = 0 ∧ cosineRom 512 = -16384 ∧ cosineRom 768 = 0

/-- R173: the checksum of the quarter-wave table, and that it never falls. -/
def Obligations.QuarterWaveTableHasItsChecksum : Prop :=
  ((List.range 257).map quarterWave).sum = 2678373 ∧ ∀ j, j < 256 → quarterWave j ≤ quarterWave (j + 1)

/-- R174: the tuning word is the nearest integer to `f * 2^32 / FS`, ties rounded up, taken modulo 2^32, as the formula
of the rule computes it; f counts only modulo FS; and the frequency it produces is, modulo FS, within FS / 2^33 of
f mod FS (both sides multiplied by 2^33). -/
def Obligations.TuningWordIsTheNearestInteger : Prop :=
  ∀ f fs : Nat, 1 ≤ fs →
    (∃ m : Nat, 2 * m * fs ≤ 2 * f * 2 ^ 32 + fs ∧ 2 * f * 2 ^ 32 + fs < 2 * m * fs + 2 * fs ∧
      (tuningWord f fs).toNat = m % 2 ^ 32) ∧
    (tuningWord f fs).toNat = (2 ^ 33 * (f % fs) + fs) / (2 * fs) % 2 ^ 32 ∧
    tuningWord (f % fs) fs = tuningWord f fs ∧
    ∃ z : Int, |2 * ((tuningWord f fs).toNat : Int) * (fs : Int) - 2 ^ 33 * (((f % fs : Nat) : Int) + z * (fs : Int))| ≤
      (fs : Int)

/-- R202: every window coefficient lies in 0..32768; for N >= 2 the two ends are 0; for N = 2 both coefficients are 0;
and the window is symmetric except at exact half-integers. The coefficient is 32768 where widx is 511, 512 or 513: the
normative table of R173 has Q[255] = Q[256] = 16384, so the remark of R202 that names 512 alone does not follow from it
(notes/assumptions/9.md). -/
def Obligations.WindowCoefficientsAreBoundedAndSymmetric : Prop :=
  (∀ n len, 2 ≤ len → n < len →
    0 ≤ windowCoeff n len ∧ windowCoeff n len ≤ 32768 ∧
    (windowCoeff n len = 32768 ↔ 511 ≤ windowIndex n len ∧ windowIndex n len ≤ 513)) ∧
  (∀ len, 2 ≤ len → windowCoeff 0 len = 0 ∧ windowCoeff (len - 1) len = 0) ∧
  (∀ n, n < 2 → windowCoeff n 2 = 0) ∧
  (∀ n len, 2 ≤ len → n < len → 2 * (n * 1024) % (2 * (len - 1)) ≠ len - 1 →
    windowCoeff n len = windowCoeff (len - 1 - n) len)

/-- R203: the windowed sample is the floor of `x * w / 32768` and keeps to 16 bits; where w is 32768, and for N = 1, it is
x itself. -/
def Obligations.WindowedSampleIsTheFloorAndFits : Prop :=
  ∀ (x : Sample) (n len : Nat), 1 ≤ len → n < len →
    ∃ y : Int, windowed len n [x.toInt] = [y] ∧
      y * 32768 ≤ x.toInt * windowCoeff n len ∧ x.toInt * windowCoeff n len < (y + 1) * 32768 ∧
      -32768 ≤ y ∧ y ≤ 32767 ∧ (windowCoeff n len = 32768 → y = x.toInt) ∧ (len = 1 → y = x.toInt)

/-- R205 (and the bound of R207): for every buffer of at most 65535 16-bit samples, both parts of every bin, and every
partial sum of them, are at most 65535 * 2^29, below 2^45, in magnitude, so a 48-bit accumulator never overflows and a
result pair holds them unchanged; the power is non-negative and below 2^91. -/
def Obligations.DftPartsAndPowerAreBounded : Prop :=
  ∀ (xs : List Sample) (k : Nat), xs.length ≤ 65535 → k < xs.length →
    let xw := windowed xs.length 0 (xs.map BitVec.toInt)
    (∀ y ∈ xw, |y| ≤ 32768) ∧ (∀ i, |cosineRom i| ≤ 16384 ∧ |sineRom i| ≤ 16384) ∧
    (∀ m, m ≤ xs.length → |dftRe k xs.length (xw.take m)| ≤ 65535 * 2 ^ 29 ∧
      |dftIm k xs.length (xw.take m)| ≤ 65535 * 2 ^ 29) ∧
    |dftRe k xs.length xw| < 2 ^ 45 ∧ |dftIm k xs.length xw| < 2 ^ 45 ∧
    (Pair64.ofInt (dftRe k xs.length xw)).toInt = dftRe k xs.length xw ∧
    (Pair64.ofInt (dftIm k xs.length xw)).toInt = dftIm k xs.length xw ∧
    0 ≤ dftPower k xs.length xw ∧ dftPower k xs.length xw < 2 ^ 91

/-- R208 with the axis of R206: the selected bin, which the formula of the rule computes, is the least index in 0..N-1
that minimizes the distance of its frequency to F. The distances are multiplied by N. -/
def Obligations.BinIndexIsTheLeastNearestBin : Prop :=
  ∀ f len fs : Nat, 1 ≤ len → 1 ≤ fs →
    let k := binIndex f len fs
    let distance (j : Nat) : Int := |binAxisTimesLen j len fs - (f * len : Nat)|
    k = min ((2 * f * len + fs - 1) / (2 * fs)) ((len - 1) / 2) ∧
    k < len ∧ (∀ j, j < len → distance k ≤ distance j) ∧ (∀ j, j < k → distance k < distance j)

/-- R209: the corner cases of bin selection. Two frequencies share a bin only when they are closer than FS / N or when
both round to the top positive bin; R209 says of the second case that both lie at or beyond that bin, which does not
follow from R208 (notes/assumptions/13.md). -/
def Obligations.BinIndexCornerCases : Prop :=
  (∀ len fs, 1 ≤ len → 1 ≤ fs → binIndex 0 len fs = 0) ∧
  (∀ f fs, 1 ≤ fs → binIndex f 1 fs = 0 ∧ binIndex f 2 fs = 0) ∧
  (∀ f len fs, 3 ≤ len → 1 ≤ fs → (len - 1) / 2 * fs ≤ f * len → binIndex f len fs = (len - 1) / 2) ∧
  (∀ f len fs, 1 ≤ len → len ≤ 65535 → 1 ≤ fs → binIndex f len fs < 32768) ∧
  (∀ f0 f1 len fs, 1 ≤ len → 1 ≤ fs → f0 ≤ f1 → binIndex f0 len fs = binIndex f1 len fs →
    (f1 - f0) * len < fs ∨ ((len - 1) / 2 * fs ≤ f0 * len + fs ∧ binIndex f0 len fs = (len - 1) / 2))

/-- R254, and R253 but for its remark on display: the frequency word on either axis is the rule's quotient in 32 bits, 0
for a single bin on the endpoint axis; it is at most 128 * FS, so it loses bits only where FS is 2^25 or more. -/
def Obligations.FrequencyWordIsExactBelowTwoToThe25 : Prop :=
  ∀ n k fs : Nat, 2 ≤ n → k < n / 2 →
    (1 ≤ fs → 256 * k * fs / n < 128 * fs) ∧ 128 * k * fs / (n / 2 - 1) ≤ 128 * fs ∧
    (freqWord k n (n / 2) fs false).toNat = 256 * k * fs / n % 2 ^ 32 ∧
    (n / 2 = 1 → freqWord k n (n / 2) fs true = 0#32) ∧
    (2 ≤ n / 2 → (freqWord k n (n / 2) fs true).toNat = 128 * k * fs / (n / 2 - 1) % 2 ^ 32) ∧
    (fs < 2 ^ 25 → (freqWord k n (n / 2) fs false).toNat = 256 * k * fs / n ∧
      (2 ≤ n / 2 → (freqWord k n (n / 2) fs true).toNat = 128 * k * fs / (n / 2 - 1)))

/-- R46: a result pair holds any integer below 2^63 in magnitude unchanged. -/
def Obligations.ResultPairReadsBackTheInteger : Prop :=
  ∀ r : Int, -2 ^ 63 ≤ r → r < 2 ^ 63 → (Pair64.ofInt r).toInt = r

/-- R232: a DETECT whose two bins are one gives BIT = 0 whatever the buffer holds, and so does a DETECT of one or two
samples, or of a buffer of zeros. -/
def Obligations.DetectOfOneBinOrSilenceGivesZero : Prop :=
  ∀ s : State, s.seq = .busy → s.ram.wf → s.lc.fs.toNat ≠ 0 →
    1 ≤ s.lc.len.toNat → s.lc.len.toNat ≤ 65535 →
    s.lc.addr.toNat + s.lc.len.toNat ≤ s.params.ramDepth →
    (s.lc.freq0 = s.lc.freq1 ∨ s.lc.len.toNat ≤ 2 ∨
      binIndex s.lc.freq0.toNat s.lc.len.toNat s.lc.fs.toNat =
        binIndex s.lc.freq1.toNat s.lc.len.toNat s.lc.fs.toNat ∨
      ∀ n, n < s.lc.len.toNat → sampleValue s n = 0) →
    ∃ t, exec .detect s = .next t ∧ t.seq = .idle ∧ t.status.done = true ∧ t.status.bit = false

/-- R256: an ANALYZE of two or three samples, or of a buffer of zeros, finds bin 0, and HS_MATCH is then 1 iff START_FREQ
is at most TOL, under either axis. -/
def Obligations.AnalyzeOfOneBinOrSilenceFindsBinZero : Prop :=
  ∀ s : State, s.seq = .busy → s.ram.wf → s.lc.fs.toNat ≠ 0 →
    2 ≤ s.lc.len.toNat → s.lc.len.toNat ≤ 65535 →
    s.lc.addr.toNat + s.lc.len.toNat ≤ s.params.ramDepth →
    (s.lc.len.toNat ≤ 3 ∨ ∀ n, n < s.lc.len.toNat → sampleValue s n = 0) →
    ∃ t, exec .analyze s = .next t ∧ t.seq = .idle ∧ t.res.faK = 0#32 ∧ t.res.faFreq = 0#32 ∧
      (t.status.hsMatch = true ↔ s.lc.start.toNat ≤ s.lc.tol.toNat)

/-- R324 with R141 and R145: no completion is lost. From every state that meets the invariant with DONE = 1, no command is
in flight and the sequencer's turn changes nothing, so no second completion can come; a command comes in flight only by a
CMD write, which clears DONE; and DONE falls only by a full-word write of the host to CMD, of a 1 to STATUS bit 1, or of a
1 to CTRL bit 2, or by power-on. -/
def Obligations.NoCompletionIsLostBeforeItsAcknowledge : Prop :=
  ∀ s t : State, Inv s → s.status.done = true → step s = .next t →
    let hostWrites (r : Reg) (p : Word → Prop) : Prop :=
      ∃ a v rest, s.events = hostWrite a 0xF#4 v :: rest ∧ a.toNat = r.offset ∧ p v
    s.seq = .idle ∧
    ((s.events = [] ∨ ∃ rest, s.events = .sequencer :: rest) → t = { s with events := s.events.tail }) ∧
    (t.seq = .busy → hostWrites .cmd (fun _ => True) ∧ t.status.done = false) ∧
    (t.status.done = false →
      hostWrites .cmd (fun _ => True) ∨ hostWrites .status (fun v => v.getLsbD 1 = true) ∨
      hostWrites .ctrl (fun v => v.getLsbD 2 = true) ∨ ∃ rest, s.events = .powerOn :: rest)
end

