-- ==== Sys2Proof/Laws/State.lean ====
section
/-! SUPPORT. What each update of the state leaves in each field. -/

namespace Sys2Proof.Machine

section respond

@[simp] theorem State.respond_params (s : State) (r : Response) : (s.respond r).params = s.params := rfl
@[simp] theorem State.respond_ctrl (s : State) (r : Response) : (s.respond r).ctrl = s.ctrl := rfl
@[simp] theorem State.respond_status (s : State) (r : Response) : (s.respond r).status = s.status := rfl
@[simp] theorem State.respond_cfg (s : State) (r : Response) : (s.respond r).cfg = s.cfg := rfl
@[simp] theorem State.respond_res (s : State) (r : Response) : (s.respond r).res = s.res := rfl
@[simp] theorem State.respond_seq (s : State) (r : Response) : (s.respond r).seq = s.seq := rfl
@[simp] theorem State.respond_lc (s : State) (r : Response) : (s.respond r).lc = s.lc := rfl
@[simp] theorem State.respond_datapath (s : State) (r : Response) : (s.respond r).datapath = s.datapath := rfl
@[simp] theorem State.respond_ram (s : State) (r : Response) : (s.respond r).ram = s.ram := rfl
@[simp] theorem State.respond_ramDraw (s : State) (r : Response) : (s.respond r).ramDraw = s.ramDraw := rfl
@[simp] theorem State.respond_draws (s : State) (r : Response) : (s.respond r).draws = s.draws := rfl
@[simp] theorem State.respond_events (s : State) (r : Response) : (s.respond r).events = s.events := rfl
@[simp] theorem State.respond_response (s : State) (r : Response) : (s.respond r).response = r := rfl

end respond

section clearOutcome

@[simp] theorem State.clearOutcome_params (s : State) : (s.clearOutcome).params = s.params := rfl
@[simp] theorem State.clearOutcome_ctrl (s : State) : (s.clearOutcome).ctrl = s.ctrl := rfl
@[simp] theorem State.clearOutcome_status (s : State) :
    (s.clearOutcome).status = { s.status with done := false, err := false, errcode := 0#4 } := rfl
@[simp] theorem State.clearOutcome_cfg (s : State) : (s.clearOutcome).cfg = s.cfg := rfl
@[simp] theorem State.clearOutcome_res (s : State) : (s.clearOutcome).res = s.res := rfl
@[simp] theorem State.clearOutcome_seq (s : State) : (s.clearOutcome).seq = s.seq := rfl
@[simp] theorem State.clearOutcome_lc (s : State) : (s.clearOutcome).lc = s.lc := rfl
@[simp] theorem State.clearOutcome_datapath (s : State) : (s.clearOutcome).datapath = s.datapath := rfl
@[simp] theorem State.clearOutcome_ram (s : State) : (s.clearOutcome).ram = s.ram := rfl
@[simp] theorem State.clearOutcome_ramDraw (s : State) : (s.clearOutcome).ramDraw = s.ramDraw := rfl
@[simp] theorem State.clearOutcome_draws (s : State) : (s.clearOutcome).draws = s.draws := rfl
@[simp] theorem State.clearOutcome_events (s : State) : (s.clearOutcome).events = s.events := rfl
@[simp] theorem State.clearOutcome_response (s : State) : (s.clearOutcome).response = s.response := rfl

end clearOutcome

section raise

@[simp] theorem State.raise_params (s : State) (e : CommandError) : (s.raise e).params = s.params := rfl
@[simp] theorem State.raise_ctrl (s : State) (e : CommandError) : (s.raise e).ctrl = s.ctrl := rfl
@[simp] theorem State.raise_status (s : State) (e : CommandError) :
    (s.raise e).status = { s.status with err := true, errcode := errorCode e } := rfl
@[simp] theorem State.raise_cfg (s : State) (e : CommandError) : (s.raise e).cfg = s.cfg := rfl
@[simp] theorem State.raise_res (s : State) (e : CommandError) : (s.raise e).res = s.res := rfl
@[simp] theorem State.raise_seq (s : State) (e : CommandError) : (s.raise e).seq = s.seq := rfl
@[simp] theorem State.raise_lc (s : State) (e : CommandError) : (s.raise e).lc = s.lc := rfl
@[simp] theorem State.raise_datapath (s : State) (e : CommandError) : (s.raise e).datapath = s.datapath := rfl
@[simp] theorem State.raise_ram (s : State) (e : CommandError) : (s.raise e).ram = s.ram := rfl
@[simp] theorem State.raise_ramDraw (s : State) (e : CommandError) : (s.raise e).ramDraw = s.ramDraw := rfl
@[simp] theorem State.raise_draws (s : State) (e : CommandError) : (s.raise e).draws = s.draws := rfl
@[simp] theorem State.raise_events (s : State) (e : CommandError) : (s.raise e).events = s.events := rfl
@[simp] theorem State.raise_response (s : State) (e : CommandError) : (s.raise e).response = s.response := rfl

end raise

section clearError

@[simp] theorem State.clearError_params (s : State) : (s.clearError).params = s.params := rfl
@[simp] theorem State.clearError_ctrl (s : State) : (s.clearError).ctrl = s.ctrl := rfl
@[simp] theorem State.clearError_status (s : State) :
    (s.clearError).status = { s.status with err := false, errcode := 0#4 } := rfl
@[simp] theorem State.clearError_cfg (s : State) : (s.clearError).cfg = s.cfg := rfl
@[simp] theorem State.clearError_res (s : State) : (s.clearError).res = s.res := rfl
@[simp] theorem State.clearError_seq (s : State) : (s.clearError).seq = s.seq := rfl
@[simp] theorem State.clearError_lc (s : State) : (s.clearError).lc = s.lc := rfl
@[simp] theorem State.clearError_datapath (s : State) : (s.clearError).datapath = s.datapath := rfl
@[simp] theorem State.clearError_ram (s : State) : (s.clearError).ram = s.ram := rfl
@[simp] theorem State.clearError_ramDraw (s : State) : (s.clearError).ramDraw = s.ramDraw := rfl
@[simp] theorem State.clearError_draws (s : State) : (s.clearError).draws = s.draws := rfl
@[simp] theorem State.clearError_events (s : State) : (s.clearError).events = s.events := rfl
@[simp] theorem State.clearError_response (s : State) : (s.clearError).response = s.response := rfl

end clearError

section accept

@[simp] theorem State.accept_params (s : State) (i : Instr) : (s.accept i).params = s.params := rfl
@[simp] theorem State.accept_ctrl (s : State) (i : Instr) : (s.accept i).ctrl = s.ctrl := rfl
@[simp] theorem State.accept_status (s : State) (i : Instr) : (s.accept i).status = s.status := rfl
@[simp] theorem State.accept_cfg (s : State) (i : Instr) : (s.accept i).cfg = s.cfg := rfl
@[simp] theorem State.accept_res (s : State) (i : Instr) : (s.accept i).res = s.res := rfl
@[simp] theorem State.accept_seq (s : State) (i : Instr) : (s.accept i).seq = .busy := rfl
@[simp] theorem State.accept_lc (s : State) (i : Instr) : (s.accept i).lc = latch i s := rfl
@[simp] theorem State.accept_datapath (s : State) (i : Instr) : (s.accept i).datapath = s.datapath := rfl
@[simp] theorem State.accept_ram (s : State) (i : Instr) : (s.accept i).ram = s.ram := rfl
@[simp] theorem State.accept_ramDraw (s : State) (i : Instr) : (s.accept i).ramDraw = s.ramDraw := rfl
@[simp] theorem State.accept_draws (s : State) (i : Instr) : (s.accept i).draws = s.draws := rfl
@[simp] theorem State.accept_events (s : State) (i : Instr) : (s.accept i).events = s.events := rfl
@[simp] theorem State.accept_response (s : State) (i : Instr) : (s.accept i).response = s.response := rfl

end accept

section finish

@[simp] theorem State.finish_params (s : State) : (s.finish).params = s.params := rfl
@[simp] theorem State.finish_ctrl (s : State) : (s.finish).ctrl = s.ctrl := rfl
@[simp] theorem State.finish_status (s : State) : (s.finish).status = { s.status with done := true } := rfl
@[simp] theorem State.finish_cfg (s : State) : (s.finish).cfg = s.cfg := rfl
@[simp] theorem State.finish_res (s : State) : (s.finish).res = s.res := rfl
@[simp] theorem State.finish_seq (s : State) : (s.finish).seq = .idle := rfl
@[simp] theorem State.finish_lc (s : State) : (s.finish).lc = Config.freeLatch s.draws := rfl
@[simp] theorem State.finish_datapath (s : State) : (s.finish).datapath = Config.freeDatapath s.draws := rfl
@[simp] theorem State.finish_ram (s : State) : (s.finish).ram = s.ram := rfl
@[simp] theorem State.finish_ramDraw (s : State) : (s.finish).ramDraw = s.ramDraw := rfl
@[simp] theorem State.finish_draws (s : State) : (s.finish).draws = s.draws + 1 := rfl
@[simp] theorem State.finish_events (s : State) : (s.finish).events = s.events := rfl
@[simp] theorem State.finish_response (s : State) : (s.finish).response = s.response := rfl

end finish

section storeSamples

@[simp] theorem State.storeSamples_params (s : State) (addr : Nat) (vs : List Sample) :
    (s.storeSamples addr vs).params = s.params := rfl
@[simp] theorem State.storeSamples_ctrl (s : State) (addr : Nat) (vs : List Sample) :
    (s.storeSamples addr vs).ctrl = s.ctrl := rfl
@[simp] theorem State.storeSamples_status (s : State) (addr : Nat) (vs : List Sample) :
    (s.storeSamples addr vs).status = s.status := rfl
@[simp] theorem State.storeSamples_cfg (s : State) (addr : Nat) (vs : List Sample) :
    (s.storeSamples addr vs).cfg = s.cfg := rfl
@[simp] theorem State.storeSamples_res (s : State) (addr : Nat) (vs : List Sample) :
    (s.storeSamples addr vs).res = s.res := rfl
@[simp] theorem State.storeSamples_seq (s : State) (addr : Nat) (vs : List Sample) :
    (s.storeSamples addr vs).seq = s.seq := rfl
@[simp] theorem State.storeSamples_lc (s : State) (addr : Nat) (vs : List Sample) :
    (s.storeSamples addr vs).lc = s.lc := rfl
@[simp] theorem State.storeSamples_datapath (s : State) (addr : Nat) (vs : List Sample) :
    (s.storeSamples addr vs).datapath = s.datapath := rfl
@[simp] theorem State.storeSamples_ram (s : State) (addr : Nat) (vs : List Sample) :
    (s.storeSamples addr vs).ram = s.ram.store (sampleOffset addr) (vs.flatMap sampleBytes) := rfl
@[simp] theorem State.storeSamples_ramDraw (s : State) (addr : Nat) (vs : List Sample) :
    (s.storeSamples addr vs).ramDraw = s.ramDraw := rfl
@[simp] theorem State.storeSamples_draws (s : State) (addr : Nat) (vs : List Sample) :
    (s.storeSamples addr vs).draws = s.draws := rfl
@[simp] theorem State.storeSamples_events (s : State) (addr : Nat) (vs : List Sample) :
    (s.storeSamples addr vs).events = s.events := rfl
@[simp] theorem State.storeSamples_response (s : State) (addr : Nat) (vs : List Sample) :
    (s.storeSamples addr vs).response = s.response := rfl

end storeSamples

section loseSamples

@[simp] theorem State.loseSamples_params (s : State) (addr n draw : Nat) :
    (s.loseSamples addr n draw).params = s.params := rfl
@[simp] theorem State.loseSamples_ctrl (s : State) (addr n draw : Nat) :
    (s.loseSamples addr n draw).ctrl = s.ctrl := rfl
@[simp] theorem State.loseSamples_status (s : State) (addr n draw : Nat) :
    (s.loseSamples addr n draw).status = s.status := rfl
@[simp] theorem State.loseSamples_cfg (s : State) (addr n draw : Nat) : (s.loseSamples addr n draw).cfg = s.cfg := rfl
@[simp] theorem State.loseSamples_res (s : State) (addr n draw : Nat) : (s.loseSamples addr n draw).res = s.res := rfl
@[simp] theorem State.loseSamples_seq (s : State) (addr n draw : Nat) : (s.loseSamples addr n draw).seq = s.seq := rfl
@[simp] theorem State.loseSamples_lc (s : State) (addr n draw : Nat) : (s.loseSamples addr n draw).lc = s.lc := rfl
@[simp] theorem State.loseSamples_datapath (s : State) (addr n draw : Nat) :
    (s.loseSamples addr n draw).datapath = s.datapath := rfl
@[simp] theorem State.loseSamples_ram (s : State) (addr n draw : Nat) :
    (s.loseSamples addr n draw).ram = s.ram.store (sampleOffset addr)
      ((List.range (2 * n)).map fun k => Config.freeByte draw (sampleOffset addr + k)) := rfl
@[simp] theorem State.loseSamples_ramDraw (s : State) (addr n draw : Nat) :
    (s.loseSamples addr n draw).ramDraw = s.ramDraw := rfl
@[simp] theorem State.loseSamples_draws (s : State) (addr n draw : Nat) :
    (s.loseSamples addr n draw).draws = s.draws := rfl
@[simp] theorem State.loseSamples_events (s : State) (addr n draw : Nat) :
    (s.loseSamples addr n draw).events = s.events := rfl
@[simp] theorem State.loseSamples_response (s : State) (addr n draw : Nat) :
    (s.loseSamples addr n draw).response = s.response := rfl

end loseSamples

section softReset

@[simp] theorem State.softReset_params (s : State) : (s.softReset).params = s.params := rfl
@[simp] theorem State.softReset_ctrl (s : State) : (s.softReset).ctrl = Ctrl.reset := rfl
@[simp] theorem State.softReset_status (s : State) : (s.softReset).status = Status.reset := rfl
@[simp] theorem State.softReset_cfg (s : State) : (s.softReset).cfg = ConfigRegs.reset := rfl
@[simp] theorem State.softReset_res (s : State) : (s.softReset).res = Results.reset := rfl
@[simp] theorem State.softReset_seq (s : State) : (s.softReset).seq = .idle := rfl
@[simp] theorem State.softReset_lc (s : State) : (s.softReset).lc = Config.freeLatch s.draws := rfl
@[simp] theorem State.softReset_datapath (s : State) : (s.softReset).datapath = Config.freeDatapath s.draws := rfl
@[simp] theorem State.softReset_ram (s : State) : (s.softReset).ram = s.abortRam.ram := rfl
@[simp] theorem State.softReset_ramDraw (s : State) : (s.softReset).ramDraw = s.ramDraw := rfl
@[simp] theorem State.softReset_draws (s : State) : (s.softReset).draws = s.draws + 1 := rfl
@[simp] theorem State.softReset_events (s : State) : (s.softReset).events = s.events := rfl
@[simp] theorem State.softReset_response (s : State) : (s.softReset).response = s.response := rfl

end softReset

section powerOnReset

@[simp] theorem State.powerOnReset_params (s : State) : (s.powerOnReset).params = s.params := rfl
@[simp] theorem State.powerOnReset_ctrl (s : State) : (s.powerOnReset).ctrl = Ctrl.reset := rfl
@[simp] theorem State.powerOnReset_status (s : State) : (s.powerOnReset).status = Status.reset := rfl
@[simp] theorem State.powerOnReset_cfg (s : State) : (s.powerOnReset).cfg = ConfigRegs.reset := rfl
@[simp] theorem State.powerOnReset_res (s : State) : (s.powerOnReset).res = Results.reset := rfl
@[simp] theorem State.powerOnReset_seq (s : State) : (s.powerOnReset).seq = .idle := rfl
@[simp] theorem State.powerOnReset_lc (s : State) : (s.powerOnReset).lc = Config.freeLatch s.draws := rfl
@[simp] theorem State.powerOnReset_datapath (s : State) :
    (s.powerOnReset).datapath = Config.freeDatapath s.draws := rfl
@[simp] theorem State.powerOnReset_ram (s : State) : (s.powerOnReset).ram = [] := rfl
@[simp] theorem State.powerOnReset_ramDraw (s : State) : (s.powerOnReset).ramDraw = s.draws := rfl
@[simp] theorem State.powerOnReset_draws (s : State) : (s.powerOnReset).draws = s.draws + 1 := rfl
@[simp] theorem State.powerOnReset_events (s : State) : (s.powerOnReset).events = s.events := rfl
@[simp] theorem State.powerOnReset_response (s : State) : (s.powerOnReset).response = .none := rfl

end powerOnReset

section toneEffect

@[simp] theorem State.setTone_params (s : State) (addr : Nat) (vs : List Sample) (ftw : Word) :
    (s.setTone addr vs ftw).params = s.params := rfl
@[simp] theorem State.setTone_ctrl (s : State) (addr : Nat) (vs : List Sample) (ftw : Word) :
    (s.setTone addr vs ftw).ctrl = s.ctrl := rfl
@[simp] theorem State.setTone_status (s : State) (addr : Nat) (vs : List Sample) (ftw : Word) :
    (s.setTone addr vs ftw).status = s.status := rfl
@[simp] theorem State.setTone_cfg (s : State) (addr : Nat) (vs : List Sample) (ftw : Word) :
    (s.setTone addr vs ftw).cfg = s.cfg := rfl
@[simp] theorem State.setTone_seq (s : State) (addr : Nat) (vs : List Sample) (ftw : Word) :
    (s.setTone addr vs ftw).seq = s.seq := rfl
@[simp] theorem State.setTone_lc (s : State) (addr : Nat) (vs : List Sample) (ftw : Word) :
    (s.setTone addr vs ftw).lc = s.lc := rfl
@[simp] theorem State.setTone_datapath (s : State) (addr : Nat) (vs : List Sample) (ftw : Word) :
    (s.setTone addr vs ftw).datapath = s.datapath := rfl
@[simp] theorem State.setTone_ramDraw (s : State) (addr : Nat) (vs : List Sample) (ftw : Word) :
    (s.setTone addr vs ftw).ramDraw = s.ramDraw := rfl
@[simp] theorem State.setTone_draws (s : State) (addr : Nat) (vs : List Sample) (ftw : Word) :
    (s.setTone addr vs ftw).draws = s.draws := rfl
@[simp] theorem State.setTone_events (s : State) (addr : Nat) (vs : List Sample) (ftw : Word) :
    (s.setTone addr vs ftw).events = s.events := rfl
@[simp] theorem State.setTone_response (s : State) (addr : Nat) (vs : List Sample) (ftw : Word) :
    (s.setTone addr vs ftw).response = s.response := rfl

@[simp] theorem toneEffect_params (fsel : FreqSel) (s : State) : (toneEffect fsel s).params = s.params :=
  State.setTone_params ..
@[simp] theorem toneEffect_ctrl (fsel : FreqSel) (s : State) : (toneEffect fsel s).ctrl = s.ctrl :=
  State.setTone_ctrl ..
@[simp] theorem toneEffect_status (fsel : FreqSel) (s : State) : (toneEffect fsel s).status = s.status :=
  State.setTone_status ..
@[simp] theorem toneEffect_cfg (fsel : FreqSel) (s : State) : (toneEffect fsel s).cfg = s.cfg :=
  State.setTone_cfg ..
@[simp] theorem toneEffect_seq (fsel : FreqSel) (s : State) : (toneEffect fsel s).seq = s.seq :=
  State.setTone_seq ..
@[simp] theorem toneEffect_lc (fsel : FreqSel) (s : State) : (toneEffect fsel s).lc = s.lc :=
  State.setTone_lc ..
@[simp] theorem toneEffect_datapath (fsel : FreqSel) (s : State) : (toneEffect fsel s).datapath = s.datapath :=
  State.setTone_datapath ..
@[simp] theorem toneEffect_ramDraw (fsel : FreqSel) (s : State) : (toneEffect fsel s).ramDraw = s.ramDraw :=
  State.setTone_ramDraw ..
@[simp] theorem toneEffect_draws (fsel : FreqSel) (s : State) : (toneEffect fsel s).draws = s.draws :=
  State.setTone_draws ..
@[simp] theorem toneEffect_events (fsel : FreqSel) (s : State) : (toneEffect fsel s).events = s.events :=
  State.setTone_events ..
@[simp] theorem toneEffect_response (fsel : FreqSel) (s : State) : (toneEffect fsel s).response = s.response :=
  State.setTone_response ..

@[simp] theorem State.setTone_ram (s : State) (addr : Nat) (vs : List Sample) (ftw : Word) :
    (s.setTone addr vs ftw).ram = (s.storeSamples addr vs).ram := rfl
@[simp] theorem State.setTone_res (s : State) (addr : Nat) (vs : List Sample) (ftw : Word) :
    (s.setTone addr vs ftw).res = { s.res with ftw := ftw } := rfl

/-- A TONE changes the sample RAM by one store and the results by one register (R89, R176). -/
theorem toneEffect_eq (fsel : FreqSel) (s : State) :
    toneEffect fsel s = s.setTone s.lc.addr.toNat
      (toneSamples (tuningWord (toneFrequency fsel s.lc) s.lc.fs.toNat) 0#32 s.lc.len.toNat)
      (tuningWord (toneFrequency fsel s.lc) s.lc.fs.toNat) := rfl

end toneEffect

section results

@[simp] theorem State.setDetection_params (s : State) (k0 k1 : Nat) (re0 im0 re1 im1 : Int) :
    (s.setDetection k0 k1 re0 im0 re1 im1).params = s.params := rfl
@[simp] theorem State.setDetection_ctrl (s : State) (k0 k1 : Nat) (re0 im0 re1 im1 : Int) :
    (s.setDetection k0 k1 re0 im0 re1 im1).ctrl = s.ctrl := rfl
@[simp] theorem State.setDetection_cfg (s : State) (k0 k1 : Nat) (re0 im0 re1 im1 : Int) :
    (s.setDetection k0 k1 re0 im0 re1 im1).cfg = s.cfg := rfl
@[simp] theorem State.setDetection_seq (s : State) (k0 k1 : Nat) (re0 im0 re1 im1 : Int) :
    (s.setDetection k0 k1 re0 im0 re1 im1).seq = s.seq := rfl
@[simp] theorem State.setDetection_lc (s : State) (k0 k1 : Nat) (re0 im0 re1 im1 : Int) :
    (s.setDetection k0 k1 re0 im0 re1 im1).lc = s.lc := rfl
@[simp] theorem State.setDetection_datapath (s : State) (k0 k1 : Nat) (re0 im0 re1 im1 : Int) :
    (s.setDetection k0 k1 re0 im0 re1 im1).datapath = s.datapath := rfl
@[simp] theorem State.setDetection_ram (s : State) (k0 k1 : Nat) (re0 im0 re1 im1 : Int) :
    (s.setDetection k0 k1 re0 im0 re1 im1).ram = s.ram := rfl
@[simp] theorem State.setDetection_ramDraw (s : State) (k0 k1 : Nat) (re0 im0 re1 im1 : Int) :
    (s.setDetection k0 k1 re0 im0 re1 im1).ramDraw = s.ramDraw := rfl
@[simp] theorem State.setDetection_draws (s : State) (k0 k1 : Nat) (re0 im0 re1 im1 : Int) :
    (s.setDetection k0 k1 re0 im0 re1 im1).draws = s.draws := rfl
@[simp] theorem State.setDetection_events (s : State) (k0 k1 : Nat) (re0 im0 re1 im1 : Int) :
    (s.setDetection k0 k1 re0 im0 re1 im1).events = s.events := rfl
@[simp] theorem State.setDetection_response (s : State) (k0 k1 : Nat) (re0 im0 re1 im1 : Int) :
    (s.setDetection k0 k1 re0 im0 re1 im1).response = s.response := rfl

@[simp] theorem detectEffect_params (s : State) : (detectEffect s).params = s.params := State.setDetection_params ..
@[simp] theorem detectEffect_ctrl (s : State) : (detectEffect s).ctrl = s.ctrl := State.setDetection_ctrl ..
@[simp] theorem detectEffect_cfg (s : State) : (detectEffect s).cfg = s.cfg := State.setDetection_cfg ..
@[simp] theorem detectEffect_seq (s : State) : (detectEffect s).seq = s.seq := State.setDetection_seq ..
@[simp] theorem detectEffect_lc (s : State) : (detectEffect s).lc = s.lc := State.setDetection_lc ..
@[simp] theorem detectEffect_datapath (s : State) : (detectEffect s).datapath = s.datapath := State.setDetection_datapath ..
@[simp] theorem detectEffect_ram (s : State) : (detectEffect s).ram = s.ram := State.setDetection_ram ..
@[simp] theorem detectEffect_ramDraw (s : State) : (detectEffect s).ramDraw = s.ramDraw := State.setDetection_ramDraw ..
@[simp] theorem detectEffect_draws (s : State) : (detectEffect s).draws = s.draws := State.setDetection_draws ..
@[simp] theorem detectEffect_events (s : State) : (detectEffect s).events = s.events := State.setDetection_events ..
@[simp] theorem detectEffect_response (s : State) : (detectEffect s).response = s.response := State.setDetection_response ..

@[simp] theorem State.setAnalysis_params (s : State) (kmax : Nat) (re im : Int) (freq : Word) (hs : Bool) :
    (s.setAnalysis kmax re im freq hs).params = s.params := rfl
@[simp] theorem State.setAnalysis_ctrl (s : State) (kmax : Nat) (re im : Int) (freq : Word) (hs : Bool) :
    (s.setAnalysis kmax re im freq hs).ctrl = s.ctrl := rfl
@[simp] theorem State.setAnalysis_cfg (s : State) (kmax : Nat) (re im : Int) (freq : Word) (hs : Bool) :
    (s.setAnalysis kmax re im freq hs).cfg = s.cfg := rfl
@[simp] theorem State.setAnalysis_seq (s : State) (kmax : Nat) (re im : Int) (freq : Word) (hs : Bool) :
    (s.setAnalysis kmax re im freq hs).seq = s.seq := rfl
@[simp] theorem State.setAnalysis_lc (s : State) (kmax : Nat) (re im : Int) (freq : Word) (hs : Bool) :
    (s.setAnalysis kmax re im freq hs).lc = s.lc := rfl
@[simp] theorem State.setAnalysis_datapath (s : State) (kmax : Nat) (re im : Int) (freq : Word) (hs : Bool) :
    (s.setAnalysis kmax re im freq hs).datapath = s.datapath := rfl
@[simp] theorem State.setAnalysis_ram (s : State) (kmax : Nat) (re im : Int) (freq : Word) (hs : Bool) :
    (s.setAnalysis kmax re im freq hs).ram = s.ram := rfl
@[simp] theorem State.setAnalysis_ramDraw (s : State) (kmax : Nat) (re im : Int) (freq : Word) (hs : Bool) :
    (s.setAnalysis kmax re im freq hs).ramDraw = s.ramDraw := rfl
@[simp] theorem State.setAnalysis_draws (s : State) (kmax : Nat) (re im : Int) (freq : Word) (hs : Bool) :
    (s.setAnalysis kmax re im freq hs).draws = s.draws := rfl
@[simp] theorem State.setAnalysis_events (s : State) (kmax : Nat) (re im : Int) (freq : Word) (hs : Bool) :
    (s.setAnalysis kmax re im freq hs).events = s.events := rfl
@[simp] theorem State.setAnalysis_response (s : State) (kmax : Nat) (re im : Int) (freq : Word) (hs : Bool) :
    (s.setAnalysis kmax re im freq hs).response = s.response := rfl

@[simp] theorem analyzeEffect_params (s : State) : (analyzeEffect s).params = s.params := State.setAnalysis_params ..
@[simp] theorem analyzeEffect_ctrl (s : State) : (analyzeEffect s).ctrl = s.ctrl := State.setAnalysis_ctrl ..
@[simp] theorem analyzeEffect_cfg (s : State) : (analyzeEffect s).cfg = s.cfg := State.setAnalysis_cfg ..
@[simp] theorem analyzeEffect_seq (s : State) : (analyzeEffect s).seq = s.seq := State.setAnalysis_seq ..
@[simp] theorem analyzeEffect_lc (s : State) : (analyzeEffect s).lc = s.lc := State.setAnalysis_lc ..
@[simp] theorem analyzeEffect_datapath (s : State) : (analyzeEffect s).datapath = s.datapath := State.setAnalysis_datapath ..
@[simp] theorem analyzeEffect_ram (s : State) : (analyzeEffect s).ram = s.ram := State.setAnalysis_ram ..
@[simp] theorem analyzeEffect_ramDraw (s : State) : (analyzeEffect s).ramDraw = s.ramDraw := State.setAnalysis_ramDraw ..
@[simp] theorem analyzeEffect_draws (s : State) : (analyzeEffect s).draws = s.draws := State.setAnalysis_draws ..
@[simp] theorem analyzeEffect_events (s : State) : (analyzeEffect s).events = s.events := State.setAnalysis_events ..
@[simp] theorem analyzeEffect_response (s : State) : (analyzeEffect s).response = s.response := State.setAnalysis_response ..

@[simp] theorem State.setDetection_status (s : State) (k0 k1 : Nat) (re0 im0 re1 im1 : Int) :
    (s.setDetection k0 k1 re0 im0 re1 im1).status =
      { s.status with bit := bitFlag (binPower re0 im0) (binPower re1 im1) } := rfl
@[simp] theorem State.setDetection_res (s : State) (k0 k1 : Nat) (re0 im0 re1 im1 : Int) :
    (s.setDetection k0 k1 re0 im0 re1 im1).res = { s.res with
      tdK0 := BitVec.ofNat 32 k0, tdK1 := BitVec.ofNat 32 k1
      tdRe0 := Pair64.ofInt re0, tdIm0 := Pair64.ofInt im0
      tdRe1 := Pair64.ofInt re1, tdIm1 := Pair64.ofInt im1 } := rfl
@[simp] theorem State.setAnalysis_status (s : State) (kmax : Nat) (re im : Int) (freq : Word) (hs : Bool) :
    (s.setAnalysis kmax re im freq hs).status = { s.status with hsMatch := hs } := rfl
@[simp] theorem State.setAnalysis_res (s : State) (kmax : Nat) (re im : Int) (freq : Word) (hs : Bool) :
    (s.setAnalysis kmax re im freq hs).res = { s.res with
      faK := BitVec.ofNat 32 kmax, faRe := Pair64.ofInt re, faIm := Pair64.ofInt im, faFreq := freq } := rfl

end results

/-- What a read of the sample RAM depends on: the listed bytes and the draw of the unlisted ones. -/
theorem State.readByte_congr {s t : State} (hr : t.ram = s.ram) (hd : t.ramDraw = s.ramDraw) (a : Nat) :
    t.readByte a = s.readByte a := by
  unfold State.readByte; rw [hr, hd]

theorem State.readSample_congr {s t : State} (hr : t.ram = s.ram) (hd : t.ramDraw = s.ramDraw) (i : Nat) :
    t.readSample i = s.readSample i := by
  unfold State.readSample; rw [State.readByte_congr hr hd, State.readByte_congr hr hd]

section issue

@[simp] theorem issue_params (i : Instr) (s : State) : (issue i s).params = s.params := by
  unfold issue; split <;> rfl
@[simp] theorem issue_ctrl (i : Instr) (s : State) : (issue i s).ctrl = s.ctrl := by
  unfold issue; split <;> rfl
@[simp] theorem issue_cfg (i : Instr) (s : State) : (issue i s).cfg = s.cfg := by
  unfold issue; split <;> rfl
@[simp] theorem issue_res (i : Instr) (s : State) : (issue i s).res = s.res := by
  unfold issue; split <;> rfl
@[simp] theorem issue_datapath (i : Instr) (s : State) : (issue i s).datapath = s.datapath := by
  unfold issue; split <;> rfl
@[simp] theorem issue_ram (i : Instr) (s : State) : (issue i s).ram = s.ram := by
  unfold issue; split <;> rfl
@[simp] theorem issue_ramDraw (i : Instr) (s : State) : (issue i s).ramDraw = s.ramDraw := by
  unfold issue; split <;> rfl
@[simp] theorem issue_draws (i : Instr) (s : State) : (issue i s).draws = s.draws := by
  unfold issue; split <;> rfl
@[simp] theorem issue_events (i : Instr) (s : State) : (issue i s).events = s.events := by
  unfold issue; split <;> rfl
@[simp] theorem issue_response (i : Instr) (s : State) : (issue i s).response = s.response := by
  unfold issue; split <;> rfl

end issue

section writeStatus

@[simp] theorem State.writeStatus_params (s : State) (v : Word) : (s.writeStatus v).params = s.params := by
  unfold State.writeStatus State.ackError State.ackDone; split <;> split <;> rfl
@[simp] theorem State.writeStatus_ctrl (s : State) (v : Word) : (s.writeStatus v).ctrl = s.ctrl := by
  unfold State.writeStatus State.ackError State.ackDone; split <;> split <;> rfl
@[simp] theorem State.writeStatus_cfg (s : State) (v : Word) : (s.writeStatus v).cfg = s.cfg := by
  unfold State.writeStatus State.ackError State.ackDone; split <;> split <;> rfl
@[simp] theorem State.writeStatus_res (s : State) (v : Word) : (s.writeStatus v).res = s.res := by
  unfold State.writeStatus State.ackError State.ackDone; split <;> split <;> rfl
@[simp] theorem State.writeStatus_seq (s : State) (v : Word) : (s.writeStatus v).seq = s.seq := by
  unfold State.writeStatus State.ackError State.ackDone; split <;> split <;> rfl
@[simp] theorem State.writeStatus_lc (s : State) (v : Word) : (s.writeStatus v).lc = s.lc := by
  unfold State.writeStatus State.ackError State.ackDone; split <;> split <;> rfl
@[simp] theorem State.writeStatus_datapath (s : State) (v : Word) : (s.writeStatus v).datapath = s.datapath := by
  unfold State.writeStatus State.ackError State.ackDone; split <;> split <;> rfl
@[simp] theorem State.writeStatus_ram (s : State) (v : Word) : (s.writeStatus v).ram = s.ram := by
  unfold State.writeStatus State.ackError State.ackDone; split <;> split <;> rfl
@[simp] theorem State.writeStatus_ramDraw (s : State) (v : Word) : (s.writeStatus v).ramDraw = s.ramDraw := by
  unfold State.writeStatus State.ackError State.ackDone; split <;> split <;> rfl
@[simp] theorem State.writeStatus_draws (s : State) (v : Word) : (s.writeStatus v).draws = s.draws := by
  unfold State.writeStatus State.ackError State.ackDone; split <;> split <;> rfl
@[simp] theorem State.writeStatus_events (s : State) (v : Word) : (s.writeStatus v).events = s.events := by
  unfold State.writeStatus State.ackError State.ackDone; split <;> split <;> rfl
@[simp] theorem State.writeStatus_response (s : State) (v : Word) : (s.writeStatus v).response = s.response := by
  unfold State.writeStatus State.ackError State.ackDone; split <;> split <;> rfl

end writeStatus

section abortRam

/-- A soft reset with no TONE in flight keeps the sample RAM. -/
theorem State.abortRam_of_idle (s : State) (h : s.seq = .idle) : s.abortRam = s := by
  unfold State.abortRam; rw [h]

end abortRam

end Sys2Proof.Machine
end

