-- ==== Sys2Proof/Laws/Sequencer.lean ====
section
/-! SUPPORT. What the issue and the completion of a command can do, and what one step can do. -/

namespace Sys2Proof.Machine

/-- The effect of a command at completion, without the end of the command. -/
def commandEffect : Instr → State → State
  | .nop => id
  | .tone fsel => toneEffect fsel
  | .detect => detectEffect
  | .analyze => analyzeEffect

section effect

variable (i : Instr) (s : State)

@[simp] theorem commandEffect_params : (commandEffect i s).params = s.params := by cases i <;> simp [commandEffect]
@[simp] theorem commandEffect_ctrl : (commandEffect i s).ctrl = s.ctrl := by cases i <;> simp [commandEffect]
@[simp] theorem commandEffect_cfg : (commandEffect i s).cfg = s.cfg := by cases i <;> simp [commandEffect]
@[simp] theorem commandEffect_seq : (commandEffect i s).seq = s.seq := by cases i <;> simp [commandEffect]
@[simp] theorem commandEffect_lc : (commandEffect i s).lc = s.lc := by cases i <;> simp [commandEffect]
@[simp] theorem commandEffect_datapath : (commandEffect i s).datapath = s.datapath := by cases i <;> simp [commandEffect]
@[simp] theorem commandEffect_ramDraw : (commandEffect i s).ramDraw = s.ramDraw := by cases i <;> simp [commandEffect]
@[simp] theorem commandEffect_draws : (commandEffect i s).draws = s.draws := by cases i <;> simp [commandEffect]
@[simp] theorem commandEffect_events : (commandEffect i s).events = s.events := by cases i <;> simp [commandEffect]
@[simp] theorem commandEffect_response : (commandEffect i s).response = s.response := by cases i <;> simp [commandEffect]
@[simp] theorem commandEffect_done : (commandEffect i s).status.done = s.status.done := by
  cases i <;> simp [commandEffect, detectEffect, analyzeEffect]
@[simp] theorem commandEffect_err : (commandEffect i s).status.err = s.status.err := by
  cases i <;> simp [commandEffect, detectEffect, analyzeEffect]
@[simp] theorem commandEffect_errcode : (commandEffect i s).status.errcode = s.status.errcode := by
  cases i <;> simp [commandEffect, detectEffect, analyzeEffect]

end effect

/-- Every arm of `exec` is the two-step form of its command. -/
theorem exec_eq (i : Instr) (s : State) : exec i s = runCommand i (commandEffect i) s := by
  cases i <;> rfl

theorem runCommand_idle {i : Instr} {f : State → State} {s : State} (h : s.seq = .idle) :
    runCommand i f s = .next (issue i s) := by
  unfold runCommand; rw [h]

theorem runCommand_busy {i : Instr} {f : State → State} {s : State} (h : s.seq = .busy)
    (hc : checkLatched i s = none) : runCommand i f s = .next (f s).finish := by
  unfold runCommand; rw [h, hc]

/-- Everything the two-step form can do when it gives a next state. -/
theorem runCommand_cases {i : Instr} {f : State → State} {s t : State} (h : runCommand i f s = .next t) :
    (s.seq = .idle ∧ t = issue i s) ∨
    (s.seq = .busy ∧ checkLatched i s = none ∧ t = (f s).finish) := by
  unfold runCommand at h
  split at h
  · next hs => cases h; exact .inl ⟨hs, rfl⟩
  · next hs =>
    split at h
    · next hc => cases h; exact .inr ⟨hs, hc, rfl⟩
    · cases h

theorem exec_idle (i : Instr) {s : State} (h : s.seq = .idle) : exec i s = .next (issue i s) := by
  rw [exec_eq, runCommand_idle h]

theorem exec_busy {i : Instr} {s : State} (h : s.seq = .busy) (hc : checkLatched i s = none) :
    exec i s = .next (commandEffect i s).finish := by
  rw [exec_eq, runCommand_busy h hc]

/-- Everything `exec` can do when it gives a next state. -/
theorem exec_cases {i : Instr} {s t : State} (h : exec i s = .next t) :
    (s.seq = .idle ∧ t = issue i s) ∨
    (s.seq = .busy ∧ checkLatched i s = none ∧ t = (commandEffect i s).finish) :=
  runCommand_cases (exec_eq i s ▸ h)

/-- The issue of a command: an error, or acceptance (R141 to R143). -/
theorem issue_cases (i : Instr) (s : State) :
    (∃ e, checkIssue i s = some e ∧ issue i s = s.clearOutcome.raise e) ∨
    (checkIssue i s = none ∧ issue i s = s.clearOutcome.accept i) := by
  unfold issue
  cases h : checkIssue i s with
  | none => exact .inr ⟨rfl, rfl⟩
  | some e => exact .inl ⟨e, rfl, rfl⟩

/-- The length limits of R143, as propositions. -/
@[simp] theorem lengthSupported_detect (n : Nat) : lengthSupported .detect n = true ↔ 1 ≤ n ∧ n ≤ 65535 := by
  simp only [lengthSupported, Bool.and_eq_true, decide_eq_true_eq]; rfl

@[simp] theorem lengthSupported_analyze (n : Nat) : lengthSupported .analyze n = true ↔ 2 ≤ n ∧ n ≤ 65535 := by
  simp only [lengthSupported, Bool.and_eq_true, decide_eq_true_eq]; rfl

/-- The checks of R143 pass exactly under the conditions of the rule. -/
theorem checkOperands_eq_none {depth fs addr n : Nat} {i : Instr} :
    checkOperands depth i fs addr n = none ↔
      (usesBuffer i = true → fs ≠ 0) ∧ lengthSupported i n = true ∧ (usesBuffer i = true → addr + n ≤ depth) := by
  unfold checkOperands
  cases h : usesBuffer i <;> cases h' : lengthSupported i n <;> by_cases hf : fs = 0 <;>
    by_cases hr : depth < addr + n <;> (simp [hf, hr]; try omega)

/-- The three errors of R143, and the first failing check that each stands for. -/
theorem checkOperands_eq_some {depth fs addr n : Nat} {i : Instr} {e : CommandError}
    (h : checkOperands depth i fs addr n = some e) :
    (e = .cfgFs ∧ usesBuffer i = true ∧ fs = 0) ∨
    (e = .len ∧ ¬(usesBuffer i = true ∧ fs = 0) ∧ lengthSupported i n = false) ∨
    (e = .range ∧ usesBuffer i = true ∧ fs ≠ 0 ∧ lengthSupported i n = true ∧ depth < addr + n) := by
  unfold checkOperands at h
  cases h1 : usesBuffer i <;> cases h2 : lengthSupported i n <;> by_cases hf : fs = 0 <;>
    by_cases hr : depth < addr + n <;> simp_all

end Sys2Proof.Machine
end

