-- ==== Sys2Proof/Laws/Bus.lean ====
section
/-! SUPPORT. The address map, and everything one host transfer and one step can do. -/

namespace Sys2Proof.Machine

/-- R33: the offset of a register finds that register, and no other offset finds it. -/
theorem ofOffset_eq_some {a : Nat} {r : Reg} : Reg.ofOffset a = some r ↔ r.offset = a := by
  constructor
  · intro h
    have := List.find?_some h
    simpa using this
  · rintro rfl
    cases r <;> rfl

theorem ofOffset_eq_none {a : Nat} : Reg.ofOffset a = none ↔ ∀ r : Reg, r.offset ≠ a := by
  rw [Option.eq_none_iff_forall_not_mem]
  exact forall_congr' fun r => not_congr (Option.mem_def.trans ofOffset_eq_some)

theorem offset_aligned (r : Reg) : r.offset % 4 = 0 := by cases r <;> rfl

theorem offset_lt (r : Reg) : r.offset < 0x88 := by cases r <;> decide

/-- The offset of a register fits the port `paddr`. -/
@[simp] theorem offset_toNat (r : Reg) : (BitVec.ofNat 20 r.offset).toNat = r.offset := by
  have := offset_lt r
  rw [BitVec.toNat_ofNat, Nat.mod_eq_of_lt (by omega)]

/-- The RAM window ends inside the 1 MiB window, at a whole number of words. -/
theorem ramDepth_bounds (p : Config.Params) : 256 ≤ p.ramDepth ∧ p.ramDepth ≤ 262144 ∧ p.ramDepth % 2 = 0 := by
  obtain ⟨k, b⟩ := p
  simp only [Config.Params.ramDepth, Config.Params.ramAw]
  revert k; decide

theorem target_reg (p : Config.Params) (r : Reg) : target p r.offset = .reg r := by
  have := offset_lt r
  unfold target
  rw [if_neg (by simp [offset_aligned]), if_pos (by simp only [ramBase]; omega), ofOffset_eq_some.mpr rfl]

theorem target_ramWord {p : Config.Params} {j : Nat} (h : 2 * j < p.ramDepth) :
    target p (ramBase + 4 * j) = .ramWord j := by
  have := ramDepth_bounds p
  unfold target
  rw [if_neg (by simp only [ramBase]; omega), if_neg (by omega), if_pos (by simp only [ramEnd]; omega)]
  congr 1; omega

/-- The address map, read backwards: what an offset names. -/
theorem target_cases (p : Config.Params) (a : Nat) :
    (target p a = .unmapped ∧ (a % 4 ≠ 0 ∨ (a < ramBase ∧ ∀ r : Reg, r.offset ≠ a) ∨ ramEnd p ≤ a)) ∨
    (∃ r : Reg, target p a = .reg r ∧ a = r.offset) ∨
    (∃ j, target p a = .ramWord j ∧ a = ramBase + 4 * j ∧ 2 * j < p.ramDepth) := by
  have hd := ramDepth_bounds p
  unfold target
  by_cases h1 : a % 4 = 0
  · by_cases h2 : a < ramBase
    · cases h3 : Reg.ofOffset a with
      | none => exact .inl ⟨by simp [h1, h2], .inr (.inl ⟨h2, ofOffset_eq_none.mp h3⟩)⟩
      | some r => exact .inr (.inl ⟨r, by simp [h1, h2], (ofOffset_eq_some.mp h3).symm⟩)
    · by_cases h3 : a < ramEnd p
      · refine .inr (.inr ⟨(a - ramBase) / 4, by simp [h1, h2, h3], ?_, ?_⟩) <;>
          simp only [ramEnd, ramBase] at * <;> omega
      · exact .inl ⟨by simp [h1, h2, h3], .inr (.inr (by omega))⟩
  · exact .inl ⟨by simp [h1], .inl h1⟩

theorem busy_eq_true {s : State} : s.busy = true ↔ s.seq = .busy := by simp [State.busy]

theorem busy_eq_false {s : State} : s.busy = false ↔ s.seq = .idle := by
  cases h : s.seq <;> simp [State.busy, h]

/-- Everything a host read can do: answer, and nothing else. -/
theorem busRead_eq (a : Nat) (s : State) : ∃ r, busRead a s = s.respond r := by
  unfold busRead
  split
  · exact ⟨_, rfl⟩
  · exact ⟨_, rfl⟩
  · split <;> exact ⟨_, rfl⟩

/-- The registers that a write changes, grouped as R33 and R37 to R43 group them. -/
theorem writeReg_cases (r : Reg) (v : Word) (s : State) :
    (r.access = .ro ∧ writeReg r v s = .next (s.respond .writeOk)) ∨
    (r = .cmd ∧ writeReg r v s = writeCmd v s) ∨
    (r = .status ∧ writeReg r v s = .next ((s.writeStatus v).respond .writeOk)) ∨
    (r = .ctrl ∧ writeReg r v s = .next (writeCtrl v s)) ∨
    (r.access = .rw ∧ r ≠ .ctrl ∧ writeReg r v s = .next (writeConfig r v s)) := by
  cases r <;> simp [writeReg, Reg.access]

/-- Everything a CMD write can do (R140 to R143). -/
theorem writeCmd_cases (w : Word) (s : State) :
    (s.seq = .busy ∧ writeCmd w s = .next (s.respond .writeError)) ∨
    (∃ e, s.seq = .idle ∧ decode w = .error e ∧
      writeCmd w s = .next ((s.respond .writeOk).clearOutcome.raise e)) ∨
    (∃ i, s.seq = .idle ∧ decode w = .ok i ∧ writeCmd w s = .next (issue i (s.respond .writeOk))) := by
  unfold writeCmd
  cases hs : s.seq with
  | busy => exact .inl ⟨rfl, by simp [State.busy, hs]⟩
  | idle =>
    cases hd : decode w with
    | error e => exact .inr (.inl ⟨e, rfl, rfl, by simp [State.busy, hs]⟩)
    | ok i => exact .inr (.inr ⟨i, rfl, rfl, by simp [State.busy, hs]; exact exec_idle i hs⟩)

/-- Everything a CTRL write can do (R37). -/
theorem writeCtrl_cases (v : Word) (s : State) :
    (v.getLsbD 2 = true ∧ writeCtrl v s = s.softReset.respond .writeOk) ∨
    (v.getLsbD 2 = false ∧ s.seq = .busy ∧ writeCtrl v s = s.respond .writeError) ∨
    (v.getLsbD 2 = false ∧ s.seq = .idle ∧
      writeCtrl v s = { s with ctrl := ctrlOfWord v, response := .writeOk }) := by
  unfold writeCtrl
  cases hv : v.getLsbD 2 <;> cases hs : s.seq <;> simp [State.busy, hs]

/-- Everything a configuration write can do (R41 to R43, R87). -/
theorem writeConfig_cases (r : Reg) (v : Word) (s : State) :
    (s.seq = .busy ∧ writeConfig r v s = s.respond .writeError) ∨
    (s.seq = .idle ∧ writeConfig r v s = { s with cfg := s.cfg.set r v, response := .writeOk }) := by
  unfold writeConfig
  cases hs : s.seq <;> simp [State.busy, hs]

/-- Everything a host write can do (R81): it is refused, ignored, or it is one of the five kinds of accepted write. -/
theorem busWrite_cases (a : Nat) (strb : BitVec 4) (v : Word) (s : State) :
    (busWrite a strb v s = .next (s.respond .writeError)) ∨
    (strb = 0xF#4 ∧ busWrite a strb v s = .next (s.respond .writeOk)) ∨
    (strb = 0xF#4 ∧ a = Reg.offset .cmd ∧ busWrite a strb v s = writeCmd v s) ∨
    (strb = 0xF#4 ∧ a = Reg.offset .status ∧
      busWrite a strb v s = .next ((s.writeStatus v).respond .writeOk)) ∨
    (strb = 0xF#4 ∧ a = Reg.offset .ctrl ∧ busWrite a strb v s = .next (writeCtrl v s)) ∨
    (∃ r : Reg, strb = 0xF#4 ∧ a = r.offset ∧ r.access = .rw ∧ r ≠ .ctrl ∧
      busWrite a strb v s = .next (writeConfig r v s)) ∨
    (∃ j, strb = 0xF#4 ∧ a = ramBase + 4 * j ∧ 2 * j < s.params.ramDepth ∧ s.seq = .idle ∧
      busWrite a strb v s = .next ((s.storeRamWord j v).respond .writeOk)) := by
  unfold busWrite
  by_cases hb : strb = 0xF#4
  · rw [if_neg (by simpa using hb)]
    rcases target_cases s.params a with ⟨ht, -⟩ | ⟨r, ht, ha⟩ | ⟨j, ht, ha, hj⟩
    · rw [ht]; exact .inl rfl
    · rw [ht]
      rcases writeReg_cases r v s with ⟨-, h⟩ | ⟨hr, h⟩ | ⟨hr, h⟩ | ⟨hr, h⟩ | ⟨hr, hr', h⟩
      · exact .inr (.inl ⟨hb, h⟩)
      · exact .inr (.inr (.inl ⟨hb, hr ▸ ha, h⟩))
      · exact .inr (.inr (.inr (.inl ⟨hb, hr ▸ ha, h⟩)))
      · exact .inr (.inr (.inr (.inr (.inl ⟨hb, hr ▸ ha, h⟩))))
      · exact .inr (.inr (.inr (.inr (.inr (.inl ⟨r, hb, ha, hr, hr', h⟩)))))
    · rw [ht]
      cases hs : s.seq with
      | busy => exact .inl (by simp [State.busy, hs])
      | idle =>
        exact .inr (.inr (.inr (.inr (.inr (.inr ⟨j, hb, ha, hj, rfl, by simp [State.busy, hs]⟩)))))
  · rw [if_pos hb]; exact .inl rfl

/-- The sequencer's turn (R145). -/
theorem sequencerTurn_idle {s : State} (h : s.seq = .idle) : sequencerTurn s = .next s := by
  unfold sequencerTurn; rw [h]

theorem sequencerTurn_busy {s : State} (h : s.seq = .busy) : sequencerTurn s = exec s.lc.cmd s := by
  unfold sequencerTurn; rw [h]

/-- Everything the sequencer's turn can do when it gives a next state. -/
theorem sequencerTurn_cases {s t : State} (h : sequencerTurn s = .next t) :
    (s.seq = .idle ∧ t = s) ∨
    (s.seq = .busy ∧ checkLatched s.lc.cmd s = none ∧ t = (commandEffect s.lc.cmd s).finish) := by
  cases hs : s.seq with
  | idle => rw [sequencerTurn_idle hs] at h; cases h; exact .inl ⟨rfl, rfl⟩
  | busy =>
    rw [sequencerTurn_busy hs] at h
    rcases exec_cases h with ⟨hi, -⟩ | ⟨-, hc, ht⟩
    · rw [hs] at hi; cases hi
    · exact .inr ⟨rfl, hc, ht⟩

/-- A step that makes a move is the move, made in the state without it. -/
theorem step_present (s : State) (e : Event) : step (Safety.present s e) = performEvent e s := rfl

/-- A step is the sequencer's turn when no move is left, else the next move. -/
theorem step_cases (s : State) :
    (s.events = [] ∧ step s = sequencerTurn s) ∨
    (∃ e rest, s.events = e :: rest ∧ step s = performEvent e { s with events := rest }) := by
  unfold step
  cases s.events with
  | nil => exact .inl ⟨rfl, rfl⟩
  | cons e rest => exact .inr ⟨e, rest, rfl, rfl⟩

/-- Everything one move (`none`: no move was left) can do to the state `s`, which no longer lists it. -/
inductive MoveEffect (s : State) : Option Event → State → Prop where
  /-- The sequencer has no step while idle (R145). -/
  | rest (m : Option Event) (hm : m = none ∨ m = some .sequencer) (hs : s.seq = .idle) :
      MoveEffect s m s
  /-- Completion (R146). -/
  | complete (m : Option Event) (hm : m = none ∨ m = some .sequencer) (hs : s.seq = .busy)
      (hc : checkLatched s.lc.cmd s = none) : MoveEffect s m (commandEffect s.lc.cmd s).finish
  /-- Power-on reset (R310). -/
  | powerOn : MoveEffect s (some .powerOn) s.powerOnReset
  /-- A transfer that only answers: a read, a refused write, an ignored write (R51, R80, R85). -/
  | answer (t : Transfer) (r : Response) (h : Safety.isSoftReset t = false) :
      MoveEffect s (some (.transfer t)) (s.respond r)
  /-- Soft reset (R311). -/
  | softReset (t : Transfer) (h : Safety.isSoftReset t = true) :
      MoveEffect s (some (.transfer t)) (s.softReset.respond .writeOk)
  /-- A CMD word that does not decode (R114, R141, R143). -/
  | undecodable (a : Offset) (v : Word) (e : CommandError) (ha : a.toNat = Reg.offset .cmd)
      (hs : s.seq = .idle) (hd : decode v = .error e) :
      MoveEffect s (some (Safety.hostWrite a 0xF#4 v)) ((s.respond .writeOk).clearOutcome.raise e)
  /-- The issue of a decoded command (R140 to R143). -/
  | issue (a : Offset) (v : Word) (i : Instr) (ha : a.toNat = Reg.offset .cmd)
      (hs : s.seq = .idle) (hd : decode v = .ok i) :
      MoveEffect s (some (Safety.hostWrite a 0xF#4 v)) (Machine.issue i (s.respond .writeOk))
  /-- A write to STATUS (R39). -/
  | status (a : Offset) (v : Word) (ha : a.toNat = Reg.offset .status) :
      MoveEffect s (some (Safety.hostWrite a 0xF#4 v)) ((s.writeStatus v).respond .writeOk)
  /-- A write to CTRL without a soft reset (R37). -/
  | ctrl (a : Offset) (v : Word) (ha : a.toNat = Reg.offset .ctrl) (hv : v.getLsbD 2 = false)
      (hs : s.seq = .idle) :
      MoveEffect s (some (Safety.hostWrite a 0xF#4 v)) { s with ctrl := ctrlOfWord v, response := .writeOk }
  /-- A write to an argument or configuration register (R41 to R43). -/
  | config (a : Offset) (v : Word) (r : Reg) (ha : a.toNat = r.offset) (hr : r.access = .rw)
      (hr' : r ≠ .ctrl) (hs : s.seq = .idle) :
      MoveEffect s (some (Safety.hostWrite a 0xF#4 v)) { s with cfg := s.cfg.set r v, response := .writeOk }
  /-- A write of a word of the RAM window (R82). -/
  | ram (a : Offset) (v : Word) (j : Nat) (ha : a.toNat = ramBase + 4 * j)
      (hj : 2 * j < s.params.ramDepth) (hs : s.seq = .idle) :
      MoveEffect s (some (Safety.hostWrite a 0xF#4 v)) ((s.storeRamWord j v).respond .writeOk)

/-- A soft reset is an accepted full-word write to CTRL with bit 2 set (R37). -/
theorem isSoftReset_eq_true {t : Transfer} :
    Safety.isSoftReset t = true ↔
      t.pwrite = true ∧ t.pstrb = 0xF#4 ∧ t.paddr.toNat = Reg.offset .ctrl ∧ t.pwdata.getLsbD 2 = true := by
  simp only [Safety.isSoftReset, Bool.and_eq_true, beq_iff_eq, and_assoc]

/-- No two registers share an offset, so a write elsewhere is no soft reset. -/
theorem isSoftReset_of_ne {t : Transfer} (h : t.paddr.toNat ≠ Reg.offset .ctrl) : Safety.isSoftReset t = false := by
  rw [Bool.eq_false_iff, Ne, isSoftReset_eq_true]
  exact fun h' => h h'.2.2.1

/-- Every transfer answers a next state, and what it can do (R80, R81). -/
theorem performTransfer_effect (tr : Transfer) (s : State) :
    ∃ t, performTransfer tr s = .next t ∧ MoveEffect s (some (.transfer tr)) t := by
  unfold performTransfer
  obtain ⟨w, a, v, b⟩ := tr
  dsimp only
  cases w
  case false =>
    obtain ⟨r, hr⟩ := busRead_eq a.toNat s
    exact ⟨_, rfl, hr ▸ .answer _ r rfl⟩
  case true =>
    rw [if_pos rfl]
    unfold busWrite
    by_cases hb : b = 0xF#4
    swap
    · exact ⟨_, if_pos hb, .answer _ _ (by simp [Safety.isSoftReset, hb])⟩
    subst hb
    rw [if_neg (not_not.mpr rfl)]
    rcases target_cases s.params a.toNat with ⟨ht, h⟩ | ⟨r, ht, ha⟩ | ⟨j, ht, ha, hj⟩ <;> rw [ht] <;> dsimp only
    · exact ⟨_, rfl, .answer _ _ (isSoftReset_of_ne fun e => by
        have := target_reg s.params .ctrl
        rw [← e, ht] at this; cases this)⟩
    · rcases writeReg_cases r v s with ⟨hr, h⟩ | ⟨rfl, h⟩ | ⟨rfl, h⟩ | ⟨rfl, h⟩ | ⟨hr, hr', h⟩ <;> rw [h]
      · exact ⟨_, rfl, .answer _ _ (isSoftReset_of_ne (by rw [ha]; cases r <;> first | decide | cases hr))⟩
      · rcases writeCmd_cases v s with ⟨_, h⟩ | ⟨e, hs, hd, h⟩ | ⟨i, hs, hd, h⟩ <;> rw [h]
        · exact ⟨_, rfl, .answer _ _ (isSoftReset_of_ne (by rw [ha]; decide))⟩
        · exact ⟨_, rfl, .undecodable a v e ha hs hd⟩
        · exact ⟨_, rfl, .issue a v i ha hs hd⟩
      · exact ⟨_, rfl, .status a v ha⟩
      · rcases writeCtrl_cases v s with ⟨hv, h⟩ | ⟨hv, hs, h⟩ | ⟨hv, hs, h⟩ <;> rw [h]
        · exact ⟨_, rfl, .softReset _ (isSoftReset_eq_true.mpr ⟨rfl, rfl, ha, hv⟩)⟩
        · exact ⟨_, rfl, .answer _ _ (Bool.eq_false_iff.mpr fun h' => by
            have h2 := (isSoftReset_eq_true.mp h').2.2.2
            rw [hv] at h2; cases h2)⟩
        · exact ⟨_, rfl, .ctrl a v ha hv hs⟩
      · rcases writeConfig_cases r v s with ⟨hs, h⟩ | ⟨hs, h⟩ <;> rw [h]
        · exact ⟨_, rfl, .answer _ _ (isSoftReset_of_ne
            (by rw [ha]; cases r <;> first | decide | exact absurd rfl hr'))⟩
        · exact ⟨_, rfl, .config a v r ha hr hr' hs⟩
    · cases hs : s.seq with
      | busy =>
        rw [busy_eq_true.mpr hs]
        exact ⟨_, rfl, .answer _ _ (isSoftReset_of_ne (by rw [ha]; simp only [ramBase, Reg.offset]; omega))⟩
      | idle =>
        rw [busy_eq_false.mpr hs]
        exact ⟨_, rfl, .ram a v j ha hj hs⟩

/-- Everything a move can do when it gives a next state. -/
theorem performEvent_effect {e : Event} {s t : State} (h : performEvent e s = .next t) : MoveEffect s (some e) t := by
  cases e with
  | transfer tr =>
    obtain ⟨u, hu, he⟩ := performTransfer_effect tr s
    rw [performEvent, hu] at h
    cases h; exact he
  | sequencer =>
    rcases sequencerTurn_cases h with ⟨hs, rfl⟩ | ⟨hs, hc, rfl⟩
    · exact .rest _ (.inr rfl) hs
    · exact .complete _ (.inr rfl) hs hc
  | powerOn => cases h; exact .powerOn

/-- Everything a step can do when it gives a next state: the effect of the next move, if there is one. -/
theorem step_effect {s t : State} (h : step s = .next t) :
    MoveEffect { s with events := s.events.tail } s.events.head? t := by
  rcases step_cases s with ⟨he, hs⟩ | ⟨e, rest, he, hs⟩
  · have hx : { s with events := s.events.tail } = s := by clear h hs; cases s; cases he; rfl
    rw [hs] at h
    rw [he, List.head?_nil, ← he, hx]
    rcases sequencerTurn_cases h with ⟨hs, rfl⟩ | ⟨hs, hc, rfl⟩
    · exact .rest _ (.inl rfl) hs
    · exact .complete _ (.inl rfl) hs hc
  · rw [he]
    exact performEvent_effect (hs ▸ h)

end Sys2Proof.Machine
end

