-- ==== Sys2Proof/Laws/Encoding.lean ====
section
/-! SUPPORT. The fields of an encoded command. -/

namespace Sys2Proof

@[simp] theorem opField_encode (i : Instr) : opField (encode i) = i.op := by
  rcases i with _ | f | _ | _ <;> (try cases f) <;> rfl

@[simp] theorem fselField_encode (i : Instr) : fselField (encode i) = i.fselBits := by
  rcases i with _ | f | _ | _ <;> (try cases f) <;> rfl

@[simp] theorem rsvdField_encode (i : Instr) : rsvdField (encode i) = 0#26 := by
  rcases i with _ | f | _ | _ <;> (try cases f) <;> rfl

@[simp] theorem FreqSel.ofField_field (f : FreqSel) : FreqSel.ofField f.field = f := by cases f <;> rfl

@[simp] theorem FreqSel.field_ofField (b : BitVec 2) : (FreqSel.ofField b).field = b := by
  revert b; decide

/-- A command word is its three fields put together (R110). -/
theorem word_of_fields (w : Word) : rsvdField w ++ fselField w ++ opField w = w := by
  ext i hi
  simp only [rsvdField, fselField, opField, BitVec.getElem_append, BitVec.getElem_extractLsb']
  split
  · simp [BitVec.getLsbD_eq_getElem hi]
  · split
    · rw [show 4 + (i - 4) = i by omega, BitVec.getLsbD_eq_getElem hi]
    · rw [show 6 + (i - 4 - 2) = i by omega, BitVec.getLsbD_eq_getElem hi]

/-- The fields as numbers (R110). -/
theorem opField_toNat (w : Word) : (opField w).toNat = w.toNat % 16 := by
  simp [opField]

theorem fselField_toNat (w : Word) : (fselField w).toNat = w.toNat / 16 % 4 := by
  simp [fselField, Nat.shiftRight_eq_div_pow]

theorem rsvdField_toNat (w : Word) : (rsvdField w).toNat = w.toNat / 64 := by
  have := w.isLt
  simp only [rsvdField, BitVec.extractLsb'_toNat, Nat.shiftRight_eq_div_pow]
  omega

/-- Everything the decoder can answer: an error of R116, or a command whose fields are the word's. -/
theorem decode_cases (w : Word) :
    (decode w = .error .illegalOp ∧ 4 ≤ (opField w).toNat) ∨
    (decode w = .error .rsvdField ∧ (opField w).toNat < 4 ∧
      (rsvdField w ≠ 0#26 ∨ (opField w ≠ 1#4 ∧ fselField w ≠ 0#2))) ∨
    (∃ i, decode w = .ok i ∧ (opField w).toNat < 4 ∧ i.op = opField w ∧ i.fselBits = fselField w ∧
      rsvdField w = 0#26) := by
  by_cases h1 : 4 ≤ (opField w).toNat
  · exact .inl ⟨by rw [decode, if_pos h1], h1⟩
  · by_cases h2 : rsvdField w = 0#26
    · by_cases h3 : opField w ≠ 1#4 ∧ fselField w ≠ 0#2
      · exact .inr (.inl ⟨by rw [decode, if_neg h1, if_neg (by simpa using h2), if_pos h3], by omega, .inr h3⟩)
      · refine .inr (.inr ?_)
        rw [decode, if_neg h1, if_neg (by simpa using h2), if_neg h3]
        rw [not_and_or, not_not, not_not] at h3
        generalize opField w = o at *
        generalize fselField w = f at *
        have ho : o = 0#4 ∨ o = 1#4 ∨ o = 2#4 ∨ o = 3#4 := by
          rcases o with ⟨⟨n, hn⟩⟩
          simp only [BitVec.toNat_ofFin] at h1
          have : n = 0 ∨ n = 1 ∨ n = 2 ∨ n = 3 := by omega
          rcases this with rfl | rfl | rfl | rfl <;> simp
        rcases ho with rfl | rfl | rfl | rfl
        · exact ⟨.nop, rfl, by decide, rfl, (h3.resolve_left (by decide)).symm, h2⟩
        · exact ⟨.tone (FreqSel.ofField f), rfl, by decide, rfl, by simp [Instr.fselBits], h2⟩
        · exact ⟨.detect, rfl, by decide, rfl, (h3.resolve_left (by decide)).symm, h2⟩
        · exact ⟨.analyze, rfl, by decide, rfl, (h3.resolve_left (by decide)).symm, h2⟩
    · exact .inr (.inl ⟨by rw [decode, if_neg h1, if_pos h2], by omega, .inl h2⟩)

end Sys2Proof
end

