-- ==== Sys2Proof/Laws/Memory.lean ====
section
/-! SUPPORT. The sample RAM: stores keep the canonical form, and what a read finds after a store. -/

namespace Sys2Proof.Machine

/-! ### Cells and canonical form -/

theorem Memory.cells_bounds {lo : Nat} {bs : List Byte} {c : Host.Cell} (h : c ∈ Memory.cells lo bs) :
    lo ≤ c.1 ∧ c.1 < lo + bs.length := by
  induction bs generalizing lo with
  | nil => simp [Memory.cells] at h
  | cons b bs ih =>
    simp only [Memory.cells, List.mem_cons] at h
    rcases h with rfl | h
    · simp
    · have := ih h; simp only [List.length_cons]; omega

theorem Memory.cells_wf (lo : Nat) (bs : List Byte) : Memory.wf (Memory.cells lo bs) := by
  induction bs generalizing lo with
  | nil => simp [Memory.cells, Memory.wf]
  | cons b bs ih =>
    simp only [Memory.wf, Memory.cells, List.map_cons, List.pairwise_cons, List.mem_map]
    refine ⟨?_, ih (lo + 1)⟩
    rintro a ⟨c, hc, rfl⟩
    have := Memory.cells_bounds hc
    omega

/-- A cell after a store is a stored one or an old one outside the stored bytes. -/
theorem Memory.mem_store {m : Memory} {lo : Nat} {bs : List Byte} {c : Host.Cell} :
    c ∈ m.store lo bs ↔
      c ∈ Memory.cells lo bs ∨ (c ∈ m ∧ (c.1 < lo ∨ lo + bs.length ≤ c.1)) := by
  simp only [Memory.store, List.mem_append, List.mem_filter, decide_eq_true_eq]
  tauto

/-- Every store keeps the canonical form. -/
theorem Memory.store_wf {m : Memory} (lo : Nat) (bs : List Byte) (h : m.wf) : (m.store lo bs).wf := by
  have sub : ∀ p : Host.Cell → Bool, Memory.wf (m.filter p) := fun p =>
    List.Pairwise.sublist (List.filter_sublist.map _) h
  simp only [Memory.wf, Memory.store, List.map_append, List.pairwise_append]
  refine ⟨⟨sub _, Memory.cells_wf lo bs, ?_⟩, sub _, ?_⟩
  · simp only [List.mem_map, List.mem_filter, decide_eq_true_eq]
    rintro a ⟨c, ⟨-, hc⟩, rfl⟩ b ⟨d, hd, rfl⟩
    have := Memory.cells_bounds hd
    omega
  · simp only [List.mem_append, List.mem_map, List.mem_filter, decide_eq_true_eq]
    rintro a (⟨c, ⟨-, hc⟩, rfl⟩ | ⟨c, hc, rfl⟩) b ⟨d, ⟨-, hd⟩, rfl⟩
    · omega
    · have := Memory.cells_bounds hc
      omega

/-- A store within bounds keeps every listed offset within them. -/
theorem Memory.store_bounds {m : Memory} {lo a b : Nat} {bs : List Byte}
    (h : ∀ c ∈ m, a ≤ c.1 ∧ c.1 < b) (ha : a ≤ lo) (hb : lo + bs.length ≤ b) :
    ∀ c ∈ m.store lo bs, a ≤ c.1 ∧ c.1 < b := by
  intro c hc
  rcases Memory.mem_store.mp hc with hc | ⟨hc, -⟩
  · have := Memory.cells_bounds hc; omega
  · exact h c hc

/-! ### Reading after a store -/

theorem Memory.find_append (m m' : Memory) (a : Nat) :
    Memory.find (m ++ m') a = (m.find a).or (m'.find a) := by
  induction m with
  | nil => simp [Memory.find]
  | cons c m ih => obtain ⟨b, v⟩ := c; simp only [List.cons_append, Memory.find, ih]; split <;> simp

theorem Memory.find_filter (m : Memory) (q : Nat → Bool) (a : Nat) :
    Memory.find (m.filter fun c => q c.1) a = if q a then m.find a else none := by
  induction m with
  | nil => simp [Memory.find]
  | cons c m ih =>
    obtain ⟨b, v⟩ := c
    by_cases hb : q b <;> by_cases hab : a = b <;> simp_all [Memory.find]

theorem Memory.find_cells (lo : Nat) (bs : List Byte) (a : Nat) :
    Memory.find (Memory.cells lo bs) a = if lo ≤ a then bs[a - lo]? else none := by
  induction bs generalizing lo with
  | nil => simp [Memory.cells, Memory.find]
  | cons b bs ih =>
    simp only [Memory.cells, Memory.find, ih]
    by_cases h : a = lo
    · simp [h]
    · by_cases hl : lo ≤ a
      · have e : a - lo = (a - (lo + 1)) + 1 := by omega
        have : lo + 1 ≤ a := by omega
        simp [h, hl, this, e]
      · have : ¬lo + 1 ≤ a := by omega
        simp [h, hl, this]

/-- What a read finds after a store: the stored byte inside it, what was there outside it. -/
theorem Memory.find_store (m : Memory) (lo : Nat) (bs : List Byte) (a : Nat) :
    (m.store lo bs).find a =
      if lo ≤ a ∧ a < lo + bs.length then bs[a - lo]? else m.find a := by
  simp only [Memory.store, Memory.find_append, Memory.find_filter m (fun x => decide (x < lo)),
    Memory.find_filter m (fun x => decide (lo + bs.length ≤ x)), Memory.find_cells]
  by_cases h1 : a < lo
  · have h2 : ¬lo ≤ a := by omega
    have h3 : ¬lo + bs.length ≤ a := by omega
    simp [h1, h2, h3]
  · by_cases h2 : a < lo + bs.length
    · have h3 : lo ≤ a := by omega
      have h4 : ¬lo + bs.length ≤ a := by omega
      simp [h1, h2, h3, h4]
    · have h3 : lo ≤ a := by omega
      have h4 : lo + bs.length ≤ a := by omega
      have h5 : bs[a - lo]? = none := List.getElem?_eq_none (by omega)
      simp [h1, h2, h3, h4, h5]

/-- A byte outside a store reads as before. -/
theorem Memory.find_store_outside {m : Memory} {lo : Nat} {bs : List Byte} {a : Nat}
    (h : a < lo ∨ lo + bs.length ≤ a) : (m.store lo bs).find a = m.find a := by
  rw [Memory.find_store, if_neg (by omega)]

/-! ### The one-pass read -/

theorem Memory.find_dropWhile (m : Memory) {a b : Nat} (h : a ≤ b) :
    Memory.find (m.dropWhile fun c => decide (c.1 < a)) b = m.find b := by
  induction m with
  | nil => simp
  | cons c m ih =>
    obtain ⟨k, v⟩ := c
    by_cases hk : k < a
    · have : b ≠ k := by omega
      simp [hk, ih, Memory.find, this]
    · simp [hk]

theorem Memory.find_none_of_head_gt {m : Memory} {k a : Nat} {v : Byte} (h : Memory.wf ((k, v) :: m)) (hk : a < k) :
    Memory.find ((k, v) :: m) a = none := by
  induction m generalizing k v with
  | nil => simp [Memory.find]; omega
  | cons c m ih =>
    obtain ⟨k', v'⟩ := c
    simp only [Memory.wf, List.map_cons, List.pairwise_cons] at h
    have hkk : k < k' := h.1 k' (by simp)
    have ha : a ≠ k := by omega
    rw [Memory.find, if_neg ha]
    exact ih (by simpa [Memory.wf] using h.2) (by omega)

/-- On a RAM in canonical form the one-pass read gives the byte of each offset, the free one where none is listed. -/
theorem Memory.readRange_eq (free : Nat → Byte) (n a : Nat) {m : Memory} (h : m.wf) :
    Memory.readRange free n a m = (List.range n).map fun k => (m.find (a + k)).getD (free (a + k)) := by
  induction n generalizing a m with
  | zero => simp [Memory.readRange]
  | succ n ih =>
    have tail : ∀ m' : Memory, m'.wf → (∀ b, a + 1 ≤ b → m'.find b = m.find b) →
        Memory.readRange free n (a + 1) m' =
          (List.range n).map fun k => (m.find (a + (k + 1))).getD (free (a + (k + 1))) := by
      intro m' hw hf
      rw [ih (a + 1) hw]
      refine List.map_congr_left fun k _ => ?_
      rw [hf _ (by omega), show a + 1 + k = a + (k + 1) by omega]
    have hd : Memory.wf (m.dropWhile fun c => decide (c.1 < a)) :=
      List.Pairwise.sublist ((List.dropWhile_sublist _).map _) h
    have hf : ∀ b, a ≤ b → Memory.find (m.dropWhile fun c => decide (c.1 < a)) b = m.find b :=
      fun b hb => Memory.find_dropWhile m hb
    have hlt : ∀ c ∈ (m.dropWhile fun c => decide (c.1 < a)).head?, a ≤ c.1 := by
      intro c hc
      have := List.head?_dropWhile_not (fun c : Host.Cell => decide (c.1 < a)) m
      rw [Option.mem_def.mp hc] at this
      simpa using this
    rw [List.range_succ_eq_map, List.map_cons, List.map_map, Memory.readRange]
    generalize hg : m.dropWhile (fun c => decide (c.1 < a)) = d at hd hf hlt
    cases d with
    | nil =>
      have h0 : m.find a = none := by rw [← hf a le_rfl]; rfl
      simp only [Nat.add_zero, h0, Option.getD_none, List.cons.injEq, true_and]
      exact tail [] (by simp [Memory.wf]) fun b hb => by rw [← hf b (by omega)]
    | cons c rest =>
      obtain ⟨k, v⟩ := c
      by_cases hk : k = a
      · subst hk
        have h0 : m.find k = some v := by rw [← hf k le_rfl]; simp [Memory.find]
        simp only [if_true, Nat.add_zero, h0, Option.getD_some, List.cons.injEq, true_and]
        refine tail rest ?_ fun b hb => ?_
        · simp only [Memory.wf, List.map_cons, List.pairwise_cons] at hd; exact hd.2
        · rw [← hf b (by omega), Memory.find, if_neg (by omega)]
      · have hka : a < k := by have := hlt (k, v) (by simp); simp at this; omega
        have h0 : m.find a = none := by
          rw [← hf a le_rfl]; exact Memory.find_none_of_head_gt hd hka
        simp only [if_neg hk, Nat.add_zero, h0, Option.getD_none, List.cons.injEq, true_and]
        exact tail _ hd fun b hb => hf b (by omega)

/-! ### Samples -/

theorem samplesOfBytes_pairs (f : Nat → Byte) (n : Nat) :
    samplesOfBytes ((List.range (2 * n)).map f) =
      (List.range n).map fun k => f (2 * k + 1) ++ f (2 * k) := by
  induction n generalizing f with
  | zero => simp [samplesOfBytes]
  | succ n ih =>
    rw [show 2 * (n + 1) = (2 * n + 1) + 1 by ring, List.range_succ_eq_map, List.range_succ_eq_map]
    simp only [List.map_cons, List.map_map, samplesOfBytes, List.range_succ_eq_map, List.cons.injEq]
    refine ⟨trivial, ?_⟩
    have := ih (fun k => f (k + 2))
    simpa [Function.comp_def, show ∀ k, 2 * (k + 1) = 2 * k + 2 from fun k => by ring] using this

/-- On a RAM in canonical form, `State.readSamples` is the list of the samples `State.readSample` reads. -/
theorem State.readSamples_eq (s : State) (addr n : Nat) (h : s.ram.wf) :
    s.readSamples addr n = (List.range n).map fun k => s.readSample (addr + k) := by
  rw [State.readSamples, Memory.readRange_eq _ _ _ h,
    samplesOfBytes_pairs (fun k => (s.ram.find (sampleOffset addr + k)).getD
      (Config.freeByte s.ramDraw (sampleOffset addr + k)))]
  refine List.map_congr_left fun k _ => ?_
  simp only [State.readSample, State.readByte, sampleOffset]
  rw [show ramBase + 2 * addr + (2 * k + 1) = ramBase + 2 * (addr + k) + 1 by ring,
    show ramBase + 2 * addr + 2 * k = ramBase + 2 * (addr + k) by ring]

@[simp] theorem length_flatMap_sampleBytes (vs : List Sample) : (vs.flatMap sampleBytes).length = 2 * vs.length := by
  induction vs with
  | nil => rfl
  | cons v vs ih => rw [List.flatMap_cons, List.length_append, ih]; simp [sampleBytes]; ring

theorem getElem?_flatMap_sampleBytes (vs : List Sample) (i : Nat) :
    (vs.flatMap sampleBytes)[2 * i]? = (vs[i]?).map (fun v => v.extractLsb' 0 8) ∧
    (vs.flatMap sampleBytes)[2 * i + 1]? = (vs[i]?).map (fun v => v.extractLsb' 8 8) := by
  induction vs generalizing i with
  | nil => simp
  | cons v vs ih =>
    cases i with
    | zero => simp [List.flatMap_cons, sampleBytes]
    | succ i =>
      have h := ih i
      rw [show 2 * (i + 1) = 2 * i + 2 by ring, show 2 * i + 2 + 1 = (2 * i + 1) + 2 by ring]
      simpa [List.flatMap_cons, sampleBytes] using h

/-- The two bytes of a sample put together again. -/
theorem sample_of_bytes (v : Sample) : v.extractLsb' 8 8 ++ v.extractLsb' 0 8 = v := by
  ext i hi
  simp only [BitVec.getElem_append, BitVec.getElem_extractLsb']
  split
  · simp [BitVec.getLsbD_eq_getElem hi]
  · rw [show 8 + (i - 8) = i by omega, BitVec.getLsbD_eq_getElem hi]

/-- A sample after a store of samples: the stored one inside the range, what was there outside it. -/
theorem State.readSample_storeSamples (s : State) (addr : Nat) (vs : List Sample) (i : Nat) :
    (s.storeSamples addr vs).readSample i =
      if addr ≤ i then (vs[i - addr]?).getD (s.readSample i) else s.readSample i := by
  have hb := getElem?_flatMap_sampleBytes vs (i - addr)
  have keep : ¬(addr ≤ i ∧ i < addr + vs.length) →
      (s.storeSamples addr vs).readSample i = s.readSample i := by
    intro h
    simp only [State.readSample, State.readByte, State.storeSamples_ram, State.storeSamples_ramDraw]
    rw [Memory.find_store_outside, Memory.find_store_outside] <;>
      simp only [length_flatMap_sampleBytes, sampleOffset] <;> omega
  by_cases h : addr ≤ i
  · by_cases h' : i < addr + vs.length
    · have hi : i - addr < vs.length := by omega
      rw [if_pos h, List.getElem?_eq_getElem hi, Option.getD_some]
      simp only [State.readSample, State.readByte, State.storeSamples_ram, State.storeSamples_ramDraw,
        Memory.find_store, length_flatMap_sampleBytes, sampleOffset]
      rw [if_pos (by omega), if_pos (by omega),
        show ramBase + 2 * i + 1 - (ramBase + 2 * addr) = 2 * (i - addr) + 1 by omega,
        show ramBase + 2 * i - (ramBase + 2 * addr) = 2 * (i - addr) by omega, hb.1, hb.2,
        List.getElem?_eq_getElem hi]
      simp only [Option.map_some, Option.getD_some]
      exact sample_of_bytes _
    · rw [keep (by omega), if_pos h, List.getElem?_eq_none (by omega), Option.getD_none]
  · rw [keep (by omega), if_neg h]

/-- A byte outside the samples stored reads as before. -/
theorem State.readByte_storeSamples_outside (s : State) {addr a : Nat} {vs : List Sample}
    (h : a < sampleOffset addr ∨ sampleOffset (addr + vs.length) ≤ a) :
    (s.storeSamples addr vs).readByte a = s.readByte a := by
  simp only [State.readByte, State.storeSamples_ram, State.storeSamples_ramDraw]
  rw [Memory.find_store_outside]
  simp only [length_flatMap_sampleBytes, sampleOffset] at *
  omega

/-- A byte outside the samples lost reads as before. -/
theorem State.readByte_loseSamples_outside (s : State) {addr n draw a : Nat}
    (h : a < sampleOffset addr ∨ sampleOffset (addr + n) ≤ a) :
    (s.loseSamples addr n draw).readByte a = s.readByte a := by
  simp only [State.readByte, State.loseSamples_ram, State.loseSamples_ramDraw]
  rw [Memory.find_store_outside]
  simp only [List.length_map, List.length_range, sampleOffset] at *
  omega

/-- Inside the samples lost every byte reads as the draw gives it, whatever it held before. -/
theorem State.readByte_loseSamples_inside (s : State) {addr n draw a : Nat}
    (h : sampleOffset addr ≤ a ∧ a < sampleOffset (addr + n)) :
    (s.loseSamples addr n draw).readByte a = Config.freeByte draw a := by
  simp only [State.readByte, State.loseSamples_ram, Memory.find_store, List.length_map, List.length_range]
  have hin : sampleOffset addr ≤ a ∧ a < sampleOffset addr + 2 * n := by
    simp only [sampleOffset] at h ⊢; omega
  rw [if_pos hin, List.getElem?_map, List.getElem?_range (by omega)]
  simp only [Option.map_some, Option.getD_some]
  rw [Nat.add_sub_cancel' hin.1]

/-- What is stored to the sample RAM keeps the canonical form. -/
theorem State.storeSamples_wf (s : State) (addr : Nat) (vs : List Sample) (h : s.ram.wf) :
    (s.storeSamples addr vs).ram.wf := Memory.store_wf _ _ h

/-- Losing samples keeps the canonical form. -/
theorem State.loseSamples_wf (s : State) (addr n draw : Nat) (h : s.ram.wf) :
    (s.loseSamples addr n draw).ram.wf := Memory.store_wf _ _ h

/-- Both resets and an aborted TONE keep the canonical form. -/
theorem State.abortRam_wf (s : State) (h : s.ram.wf) : s.abortRam.ram.wf := by
  unfold State.abortRam
  split
  · exact State.loseSamples_wf _ _ _ _ h
  · exact h

end Sys2Proof.Machine
end

