-- ==== Sys2Proof/Laws/PerInstr.lean ====
section
/-! SUPPORT. The statement made of every command, one lemma for each constructor. -/

namespace Sys2Proof.Laws

/-- The encoding of a command matches the row of R115 that bears its mnemonic, and no other row. -/
def RowMatch.Statement (i : Instr) : Prop :=
  i.wellFormed = true ∧ (opcodeRows.filter fun r => r.selects (encode i)).map OpcodeRow.mnemonic = [i.mnemonic]

theorem RowMatch.nop : RowMatch.Statement .nop := ⟨rfl, by decide⟩

theorem RowMatch.tone (fsel : FreqSel) : RowMatch.Statement (.tone fsel) := by
  cases fsel <;> exact ⟨rfl, by decide⟩

theorem RowMatch.detect : RowMatch.Statement .detect := ⟨rfl, by decide⟩

theorem RowMatch.analyze : RowMatch.Statement .analyze := ⟨rfl, by decide⟩

end Sys2Proof.Laws
end

