-- ==== Sys2Proof/Laws/Spectral.lean ====
section
/-! SUPPORT. The sine ROM's bounds, the Hann window and the DFT sums (spec/41_nco.md R171 to R176,
spec/42_spectral.md R201 to R207). -/

namespace Sys2Proof.Machine

/-! ### The ROM -/

/-- Every word of the quarter-wave table lies in 0..16384. -/
theorem quarterWave_bounds (j : Nat) : 0 ≤ quarterWave j ∧ quarterWave j ≤ 16384 := by
  have all : ∀ row ∈ quarterRows, ∀ q ∈ row, 0 ≤ q ∧ q ≤ 16384 := by decide
  unfold quarterWave
  rw [List.getD_eq_getElem?_getD, List.getD_eq_getElem?_getD]
  cases h : quarterRows[j / 16]? with
  | none => simp
  | some row =>
    simp only [Option.getD_some]
    cases h' : row[j % 16]? with
    | none => simp
    | some q => simpa using all row (List.mem_of_getElem? h) q (List.mem_of_getElem? h')

/-- Every ROM read lies in -16384..16384. -/
theorem sineRom_bounds (i : Nat) : -16384 ≤ sineRom i ∧ sineRom i ≤ 16384 := by
  unfold sineRom
  have h1 := quarterWave_bounds i
  have h2 := quarterWave_bounds (512 - i)
  have h3 := quarterWave_bounds (i - 512)
  have h4 := quarterWave_bounds (1024 - i)
  split <;> [skip; split <;> [skip; split]] <;> omega

theorem cosineRom_bounds (i : Nat) : -16384 ≤ cosineRom i ∧ cosineRom i ≤ 16384 := sineRom_bounds _

/-- A ROM word survives its 16-bit pattern: `trunc_16` loses nothing (R176). -/
theorem sineRom_toInt (i : Nat) : (BitVec.ofInt 16 (sineRom i)).toInt = sineRom i := by
  have := sineRom_bounds i
  rw [BitVec.toInt_ofInt, Int.bmod_eq_of_le] <;> omega

/-! ### TONE -/

@[simp] theorem length_toneSamples (ftw phase : BitVec 32) (n : Nat) : (toneSamples ftw phase n).length = n := by
  induction n generalizing phase with
  | zero => rfl
  | succ n ih => simp [toneSamples, ih]

/-- Sample n of a tone is the ROM word of the phase `phase + n * FTW` modulo 2^32 (R175). -/
theorem getElem?_toneSamples (ftw phase : BitVec 32) {n k : Nat} (h : k < n) :
    (toneSamples ftw phase n)[k]? =
      some (BitVec.ofInt 16 (sineRom ((phase.toNat + k * ftw.toNat) % 2 ^ 32 / 2 ^ 22))) := by
  induction n generalizing phase k with
  | zero => omega
  | succ n ih =>
    cases k with
    | zero =>
      have := phase.isLt
      simp only [toneSamples, List.getElem?_cons_zero, romIndex, BitVec.extractLsb'_toNat,
        Nat.shiftRight_eq_div_pow, Nat.zero_mul, Nat.add_zero]
      congr 4
      omega
    | succ k =>
      rw [toneSamples, List.getElem?_cons_succ, ih _ (by omega), BitVec.toNat_add]
      rw [Nat.mod_add_mod, show phase.toNat + ftw.toNat + k * ftw.toNat = phase.toNat + (k + 1) * ftw.toNat by ring]

/-! ### The window -/

theorem windowCoeff_bounds (n len : Nat) : 0 ≤ windowCoeff n len ∧ windowCoeff n len ≤ 32768 := by
  unfold windowCoeff
  have := cosineRom_bounds (windowIndex n len)
  split <;> omega

/-- `>>> 15` is the floor of the quotient by 2^15 (R12). -/
theorem shiftRight_15 (z : Int) : z >>> (15 : Nat) = z / 32768 := by
  rw [Int.shiftRight_eq_div_pow]; norm_num

@[simp] theorem length_windowed (len n : Nat) (xs : List Int) : (windowed len n xs).length = xs.length := by
  induction xs generalizing n with
  | nil => rfl
  | cons x xs ih => simp [windowed, ih]

theorem getElem?_windowed (len n : Nat) (xs : List Int) (k : Nat) :
    (windowed len n xs)[k]? = xs[k]?.map fun x => x * windowCoeff (n + k) len / 32768 := by
  induction xs generalizing n k with
  | nil => simp [windowed]
  | cons x xs ih =>
    cases k with
    | zero => simp [windowed, shiftRight_15]
    | succ k => simp [windowed, ih, show n + 1 + k = n + (k + 1) by omega]

/-- A 16-bit sample stays one under the window (R203). -/
theorem windowed_value_bounds {x w : Int} (hx : -32768 ≤ x ∧ x ≤ 32767) (hw : 0 ≤ w ∧ w ≤ 32768) :
    -32768 ≤ x * w / 32768 ∧ x * w / 32768 ≤ 32767 := by
  have h1 : -32768 * 32768 ≤ x * w := by nlinarith
  have h2 : x * w ≤ 32767 * 32768 := by nlinarith
  omega

/-! ### The DFT sums -/

/-- The recursion of `correlate` as the sum of R204. -/
theorem correlate_eq_sum (rom : Nat → Int) (k len n : Nat) (xs : List Int) :
    correlate rom k len n xs =
      ∑ i ∈ Finset.range xs.length, xs.getD i 0 * rom (twiddleIndex k (n + i) len) := by
  induction xs generalizing n with
  | nil => simp [correlate]
  | cons x xs ih =>
    rw [correlate, ih, List.length_cons, Finset.sum_range_succ', add_comm]
    simp only [List.getD_cons_zero, List.getD_cons_succ, Nat.add_zero]
    refine congrArg (· + x * rom (twiddleIndex k n len)) (Finset.sum_congr rfl fun i _ => ?_)
    rw [show n + 1 + i = n + (i + 1) by omega]

/-- The bound of R205 on a sum of `xs.length` products. -/
theorem correlate_bound {rom : Nat → Int} {k len n : Nat} {xs : List Int}
    (hx : ∀ x ∈ xs, -32768 ≤ x ∧ x ≤ 32767) (hr : ∀ i, -16384 ≤ rom i ∧ rom i ≤ 16384) :
    |correlate rom k len n xs| ≤ xs.length * 2 ^ 29 := by
  induction xs generalizing n with
  | nil => simp [correlate]
  | cons x xs ih =>
    have h1 := ih (n := n + 1) fun y hy => hx y (List.mem_cons_of_mem _ hy)
    have h2 := hx x List.mem_cons_self
    have h3 := hr (twiddleIndex k n len)
    have h4 : |x * rom (twiddleIndex k n len)| ≤ 2 ^ 29 := by
      rw [abs_mul]
      have hxa : |x| ≤ 32768 := abs_le.mpr ⟨by omega, by omega⟩
      have hra : |rom (twiddleIndex k n len)| ≤ 16384 := abs_le.mpr h3
      calc |x| * |rom (twiddleIndex k n len)| ≤ 32768 * 16384 :=
            mul_le_mul hxa hra (abs_nonneg _) (by norm_num)
        _ = 2 ^ 29 := by norm_num
    calc |correlate rom k len n (x :: xs)|
        ≤ |x * rom (twiddleIndex k n len)| + |correlate rom k len (n + 1) xs| := by
          rw [correlate]; exact abs_add_le _ _
      _ ≤ 2 ^ 29 + xs.length * 2 ^ 29 := add_le_add h4 h1
      _ = ((x :: xs).length : Int) * 2 ^ 29 := by push_cast [List.length_cons]; ring

/-- A windowed buffer of 16-bit samples holds 16-bit values. -/
theorem windowed_bounds {len n : Nat} {xs : List Int} (hx : ∀ x ∈ xs, -32768 ≤ x ∧ x ≤ 32767) :
    ∀ y ∈ windowed len n xs, -32768 ≤ y ∧ y ≤ 32767 := by
  intro y hy
  obtain ⟨k, hk⟩ := List.getElem?_of_mem hy
  rw [getElem?_windowed, Option.map_eq_some_iff] at hk
  obtain ⟨x, hx', rfl⟩ := hk
  exact windowed_value_bounds (hx x (List.mem_of_getElem? hx')) (windowCoeff_bounds _ _)

theorem sample_toInt_bounds (v : Sample) : -32768 ≤ v.toInt ∧ v.toInt ≤ 32767 := by
  have h1 := v.le_toInt
  have h2 := v.toInt_lt
  constructor <;> norm_num at * <;> omega

/-- Every sample value of the latched buffer is a 16-bit one. -/
theorem buffer_bounds (s : State) : ∀ x ∈ buffer s, -32768 ≤ x ∧ x ≤ 32767 := by
  intro x hx
  simp only [buffer, List.mem_map] at hx
  obtain ⟨v, -, rfl⟩ := hx
  exact sample_toInt_bounds v

/-! ### The latched buffer -/

/-- On a RAM in canonical form the buffer is the list of its sample values. -/
theorem buffer_eq (s : State) (h : s.ram.wf) :
    buffer s = (List.range s.lc.len.toNat).map (Safety.sampleValue s) := by
  rw [buffer, State.readSamples_eq _ _ _ h, List.map_map]
  rfl

/-- On a RAM in canonical form the windowed buffer is the list of its windowed values. -/
theorem windowed_buffer_eq (s : State) (h : s.ram.wf) :
    windowed s.lc.len.toNat 0 (buffer s) = (List.range s.lc.len.toNat).map (Safety.windowedValue s) := by
  apply List.ext_getElem?
  intro k
  rw [getElem?_windowed, buffer_eq s h, List.getElem?_map, List.getElem?_map]
  by_cases hk : k < s.lc.len.toNat
  · rw [List.getElem?_range hk]
    simp [Safety.windowedValue]
  · rw [List.getElem?_eq_none (by simpa using hk)]; rfl

/-- Either DFT sum of the latched buffer, from the recursion to the closed form. -/
theorem correlate_buffer (rom : Nat → Int) (s : State) (k : Nat) (h : s.ram.wf) :
    correlate rom k s.lc.len.toNat 0 (windowed s.lc.len.toNat 0 (buffer s)) =
      ∑ n ∈ Finset.range s.lc.len.toNat, Safety.windowedValue s n * rom (twiddleIndex k n s.lc.len.toNat) := by
  rw [windowed_buffer_eq s h, correlate_eq_sum, List.length_map, List.length_range]
  refine Finset.sum_congr rfl fun i hi => ?_
  rw [Finset.mem_range] at hi
  rw [List.getD_eq_getElem?_getD, List.getElem?_map, List.getElem?_range hi, Nat.zero_add]
  rfl

theorem dftRe_buffer (s : State) (k : Nat) (h : s.ram.wf) :
    dftRe k s.lc.len.toNat (windowed s.lc.len.toNat 0 (buffer s)) = Safety.reSum s k :=
  correlate_buffer cosineRom s k h

theorem dftIm_buffer (s : State) (k : Nat) (h : s.ram.wf) :
    dftIm k s.lc.len.toNat (windowed s.lc.len.toNat 0 (buffer s)) = Safety.imSum s k := by
  rw [dftIm, correlate_buffer sineRom s k h]; rfl

theorem dftPower_buffer (s : State) (k : Nat) (h : s.ram.wf) :
    dftPower k s.lc.len.toNat (windowed s.lc.len.toNat 0 (buffer s)) = Safety.powerSum s k := by
  rw [dftPower, dftRe_buffer s k h, dftIm_buffer s k h, binPower, Safety.powerSum]; ring

/-- R205: either sum over at most 65535 samples is below 2^45 in magnitude. -/
theorem correlate_lt {rom : Nat → Int} {k len n : Nat} {xs : List Int} (hl : xs.length ≤ 65535)
    (hx : ∀ x ∈ xs, -32768 ≤ x ∧ x ≤ 32767) (hr : ∀ i, -16384 ≤ rom i ∧ rom i ≤ 16384) :
    |correlate rom k len n xs| < 2 ^ 45 := by
  have h1 := correlate_bound (k := k) (len := len) (n := n) hx hr
  have h2 : (xs.length : Int) ≤ 65535 := by exact_mod_cast hl
  omega

theorem reSum_lt (s : State) (k : Nat) (h : s.ram.wf) (hl : s.lc.len.toNat ≤ 65535) :
    |Safety.reSum s k| < 2 ^ 45 := by
  rw [← dftRe_buffer s k h]
  exact correlate_lt (by simp [buffer_eq s h, hl]) (windowed_bounds (buffer_bounds s)) cosineRom_bounds

theorem imSum_lt (s : State) (k : Nat) (h : s.ram.wf) (hl : s.lc.len.toNat ≤ 65535) :
    |Safety.imSum s k| < 2 ^ 45 := by
  rw [← dftIm_buffer s k h, dftIm, abs_neg]
  exact correlate_lt (by simp [buffer_eq s h, hl]) (windowed_bounds (buffer_bounds s)) sineRom_bounds

/-! ### The peak search -/

/-- What the peak search of R250 keeps: the least index of the greatest power among the bins it has seen. -/
theorem peakSearch_spec (power : Nat → Int) (kmax k fuel : Nat)
    (hk : kmax < k) (hmax : ∀ j, j < k → power j ≤ power kmax) (hmin : ∀ j, j < kmax → power j < power kmax) :
    let r := peakSearch power kmax (power kmax) k fuel
    r < k + fuel ∧ (∀ j, j < k + fuel → power j ≤ power r) ∧ ∀ j, j < r → power j < power r := by
  induction fuel generalizing kmax k with
  | zero => exact ⟨hk, hmax, hmin⟩
  | succ fuel ih =>
    simp only [peakSearch]
    split
    · next hlt =>
      rw [show k + (fuel + 1) = k + 1 + fuel by omega]
      refine ih k (k + 1) (by omega) (fun j hj => ?_) fun j hj => lt_of_le_of_lt (hmax j hj) hlt
      rcases Nat.lt_succ_iff_lt_or_eq.mp hj with hj | rfl
      · exact le_of_lt (lt_of_le_of_lt (hmax j hj) hlt)
      · exact le_rfl
    · next hge =>
      rw [show k + (fuel + 1) = k + 1 + fuel by omega]
      refine ih kmax (k + 1) (by omega) (fun j hj => ?_) hmin
      rcases Nat.lt_succ_iff_lt_or_eq.mp hj with hj | rfl
      · exact hmax j hj
      · exact not_lt.mp hge

/-- The peak bin is the least index of the greatest power among bins 0 .. K-1 (R251). -/
theorem peakBin_spec (power : Nat → Int) {halfN : Nat} (h : 1 ≤ halfN) :
    peakBin power halfN < halfN ∧ (∀ j, j < halfN → power j ≤ power (peakBin power halfN)) ∧
      ∀ j, j < peakBin power halfN → power j < power (peakBin power halfN) := by
  have := peakSearch_spec power 0 1 (halfN - 1) (by omega)
    (fun j hj => by rw [Nat.lt_one_iff.mp hj]) (fun j hj => by omega)
  rwa [show 1 + (halfN - 1) = halfN by omega] at this

/-! ### Result registers -/

/-- The two halves of a 64-bit word put together again. -/
theorem word64_of_halves (w : BitVec 64) : w.extractLsb' 32 32 ++ w.extractLsb' 0 32 = w := by
  ext i hi
  simp only [BitVec.getElem_append, BitVec.getElem_extractLsb']
  split
  · simp [BitVec.getLsbD_eq_getElem hi]
  · rw [show 32 + (i - 32) = i by omega, BitVec.getLsbD_eq_getElem hi]

/-- What a result pair reads back as: the integer modulo 2^64, in the signed range. -/
theorem Pair64.toInt_ofInt (r : Int) : (Pair64.ofInt r).toInt = r.bmod (2 ^ 64) := by
  simp only [Pair64.toInt, Pair64.ofInt, word64_of_halves, BitVec.toInt_ofInt]

/-- A DFT part survives its result pair. -/
theorem Pair64.toInt_ofInt_of_lt {r : Int} (h : |r| < 2 ^ 45) : (Pair64.ofInt r).toInt = r := by
  rw [abs_lt] at h
  rw [Pair64.toInt_ofInt, Int.bmod_eq_of_le] <;> omega

end Sys2Proof.Machine
end

