-- ==== Sys2Proof/Tests/Slice0.lean ====
section
/-! SUPPORT. Tests: expected values are the spec's worked examples (spec/95_test_vectors.md, named at each test) or
written out from its encoding tables; and a witness of the hypotheses of each statement that has some. -/

namespace Sys2Proof.Tests

open Sys2Proof.Machine Sys2Proof.Safety

/-! ### Helpers -/

/-- A machine outcome. -/
abbrev Out := Host.Outcome State Fault Refusal

/-- The outcome is a next state of which `p` holds. -/
def nextHas (o : Out) (p : State → Bool) : Bool :=
  match o with
  | .next s => p s
  | .fault _ => false
  | .refused _ => false

/-- An idle block with the common configuration of spec/95_test_vectors.md 2.5 and 2.6 and a buffer. -/
def idleWith (addr len : Word) : State :=
  { State.reset with
    cfg := { argAddr := addr, argLen := len, fs := 8000, freq0 := 1000, freq1 := 2000, startFreq := 3000, tol := 50
             freqT := 440 } }

/-- That block with a command in flight. -/
def inFlight (i : Instr) (addr len : Word) : State :=
  { idleWith addr len with seq := .busy, lc := latch i (idleWith addr len) }

/-- That block with a command in flight and samples at the start of the RAM. -/
def onSamples (i : Instr) (xs : List Sample) : State :=
  (inFlight i 0 (BitVec.ofNat 32 xs.length)).storeSamples 0 xs

/-- The buffer of T-D8 and T-A8: 100, 200, -300, 400. -/
def bufferD8 : List Sample := [100, 200, -300, 400]

/-- The buffer of T-D7: 16384, 0, -16384, 0. -/
def bufferD7 : List Sample := [16384, 0, -16384, 0]

/-! ### Well-formed words: each check refuses an ill-formed one (R116) -/

theorem test_op_check_refuses_op_4 :
    opDefined 0x4#32 = false ∧ wordWellFormed 0x4#32 = false ∧ decode 0x4#32 = .error .illegalOp := by decide

theorem test_rsvd_check_refuses_bit_31 :
    rsvdClear 0x80000001#32 = false ∧ wordWellFormed 0x80000001#32 = false ∧
      decode 0x80000001#32 = .error .rsvdField := by decide

theorem test_fsel_check_refuses_nop_with_fsel :
    fselAllowed 0x10#32 = false ∧ wordWellFormed 0x10#32 = false ∧ decode 0x10#32 = .error .rsvdField := by decide

theorem test_table_word_refuses : decodeTableWord 32 0x4 = none ∧ decodeTableWord 32 0x40 = none := by decide

/-! ### Decoding words written out from R110 to R112: `{RSVD, FSEL, OP}` -/

theorem test_decode_nop : decode 0b00000000000000000000000000000000#32 = .ok .nop := by decide

theorem test_decode_tone_freq0 : decode 0b00000000000000000000000000000001#32 = .ok (.tone .freq0) := by decide

theorem test_decode_tone_freq1 : decode 0b00000000000000000000000000010001#32 = .ok (.tone .freq1) := by decide

theorem test_decode_tone_start : decode 0b00000000000000000000000000100001#32 = .ok (.tone .start) := by decide

theorem test_decode_tone_freqT : decode 0b00000000000000000000000000110001#32 = .ok (.tone .freqT) := by decide

theorem test_decode_detect : decode 0b00000000000000000000000000000010#32 = .ok .detect := by decide

theorem test_decode_analyze : decode 0b00000000000000000000000000000011#32 = .ok .analyze := by decide

/-! ### The commands, one step each -/

/-- The example of R150: from reset, STATUS reads BUSY. -/
theorem test_nop_issue :
    nextHas (step (State.reset.withFetchWord 32 0x0)) (fun s => s.statusWord == 0x1#32) = true := by decide

/-- The example of R150: after completion, STATUS reads DONE. -/
theorem test_nop_completion :
    nextHas (step (inFlight .nop 0 0)) (fun s => s.statusWord == 0x2#32) = true := by decide

/-- T-N3 (2000 Hz) from the odd sample index 3: 0, 16384, 0, -16384, and FTW. -/
theorem test_tone_samples :
    nextHas (step (inFlight (.tone .freq1) 3 6)) (fun s =>
      (s.readSample 3, s.readSample 4, s.readSample 6, s.res.ftw) == (0#16, 16384#16, -16384#16, 0x40000000#32))
      = true := by decide

/-- T-N8: N = 0 at the very end of the RAM writes no word, and FTW. -/
theorem test_tone_of_no_sample :
    nextHas (step (inFlight (.tone .freqT) 262144 0)) (fun s =>
      s.statusWord == 0x2#32 && s.ram == [] && s.res.ftw == 0x0E147AE1#32) = true := by decide

/-- T-D8: k0 = 0, k1 = 1, re0 = -1245184, im1 = -2441216, BIT = 1. -/
theorem test_detect_two_bins :
    nextHas (step (onSamples .detect bufferD8)) (fun s =>
      (s.res.tdK0, s.res.tdK1, s.res.tdRe0.toInt, s.res.tdIm1.toInt, s.status.bit) ==
        (0#32, 1#32, -1245184, -2441216, true)) = true := by decide

/-- T-D7: equal powers, so BIT = 0, also where it was 1 before. -/
theorem test_detect_tie_clears_bit :
    nextHas (step { onSamples .detect bufferD7 with status := { Status.reset with bit := true } }) (fun s =>
      (s.res.tdRe0.toInt, s.res.tdRe1.toInt, s.status.bit) == (-201097216, 201097216, false)) = true := by decide

/-- T-A8 with FMAP = 0: FA_K = 1, FA_RE = 3686400, FA_FREQ = 512000, HS_MATCH = 0. -/
theorem test_analyze_bin_centre :
    nextHas (step (onSamples .analyze bufferD8)) (fun s =>
      (s.res.faK, s.res.faRe.toInt, s.res.faFreq, s.status.hsMatch) == (1#32, 3686400, 512000#32, false))
      = true := by decide

/-- T-A8 with FMAP = 1: FA_FREQ = 1024000 (FS/2). -/
theorem test_analyze_endpoint :
    let s := onSamples .analyze bufferD8
    nextHas (step { s with lc := { s.lc with fmap := true } }) (fun s =>
      (s.res.faK, s.res.faFreq) == (1#32, 1024000#32)) = true := by decide

/-! ### Errors, the bus and reset -/

/-- T-E3 and T-E8: decoding comes before the configuration checks, and the range check does not wrap. -/
theorem test_error_order :
    nextHas (step (State.reset.withFetchWord 32 0x13)) (fun s => s.statusWord == 0x204#32) = true ∧
    nextHas (step ((idleWith 0xFFFFFFFF 1).withFetchWord 32 0x2)) (fun s => s.statusWord == 0x504#32) = true := by
  decide

/-- T-E11 and T-E13: 65536 samples are too many for DETECT and not for TONE. -/
theorem test_length_limit :
    nextHas (step ((idleWith 0 65536).withFetchWord 32 0x2)) (fun s => s.statusWord == 0x404#32) = true ∧
    nextHas (step ((idleWith 0 65536).withFetchWord 32 0x11)) (fun s => s.statusWord == 0x1#32) = true := by
  decide

/-- T-B4: a CTRL write with bit 2 clear keeps bits 1 and 0 only. -/
theorem test_ctrl_write :
    nextHas (step (present State.reset (hostWriteReg .ctrl 0xFFFFFFFB#32))) (fun s => s.readReg .ctrl == 0x3#32)
      = true := by decide

/-- T-B11: `WRRAM 2, -300, 400` then `RDRAM 2`. -/
theorem test_ram_window_word :
    nextHas (step (present State.reset (Script.wrRam 2 (-300) 400))) (fun s => s.readRamWord 1 == 0x0190FED4#32)
      = true := by decide

/-- T-B12: with RAM_AW = 8 the last word of the RAM window is at 0x801FC. -/
theorem test_ram_window_end : target ⟨0, 0⟩ 0x801FC = .ramWord 127 ∧ target ⟨0, 0⟩ 0x80200 = .unmapped := by decide

/-- T-R3: a soft reset of a TONE in flight leaves STATUS and FTW 0, and the sample after its buffer as it was. -/
theorem test_soft_reset_aborts_tone :
    nextHas (step (present ((inFlight (.tone .freq1) 0 4).storeSamples 4 [0x1234]) (hostWriteReg .ctrl 0x4#32)))
      (fun s => (s.statusWord, s.res.ftw, s.readSample 4) == (0#32, 0#32, 0x1234#16)) = true := by decide

/-! ### Witnesses: states and operands that meet the hypotheses of the statements, clause by clause -/

/-- A TONE in flight over the last four samples of the RAM. -/
def toneInFlight : State := inFlight (.tone .freq1) 262140 4

theorem toneInFlight_inv : Inv toneInFlight where
  status := ⟨by decide, by decide, by decide, by decide⟩
  latch := ⟨by decide, by decide⟩
  ram := ⟨by decide, by decide⟩
  results := by constructor <;> decide

theorem witness_DecodeFollowsTheFieldTests :
    4 ≤ (0x4#32).toNat % 16 ∧
    (0x43#32).toNat % 16 < 4 ∧ (0x43#32).toNat / 64 ≠ 0 ∧
    (0x33#32).toNat % 16 < 4 ∧ (0x33#32).toNat / 64 = 0 ∧ (0x33#32).toNat % 16 ≠ 1 ∧ (0x33#32).toNat / 16 % 4 ≠ 0 ∧
    (0x0#32).toNat / 64 = 0 ∧ (0x0#32).toNat % 16 = 0 ∧ (0x0#32).toNat / 16 % 4 = 0 ∧
    (0x31#32).toNat / 64 = 0 ∧ (0x31#32).toNat % 16 = 1 ∧
    (0x2#32).toNat / 64 = 0 ∧ (0x2#32).toNat % 16 = 2 ∧ (0x2#32).toNat / 16 % 4 = 0 ∧
    (0x3#32).toNat / 64 = 0 ∧ (0x3#32).toNat % 16 = 3 ∧ (0x3#32).toNat / 16 % 4 = 0 ∧
    State.reset.seq = .idle ∧ decode 0x33#32 = .error .rsvdField := by decide

theorem witness_WordsSelectCommandsByMatchAndMask : decode 0x31#32 = .ok (.tone .freqT) := by decide

/-- Each command at the smallest buffer it accepts, at the end of the RAM; NOP with FS = 0. -/
theorem witness_CommandIsAcceptedWhenEveryCheckPasses :
    State.reset.seq = .idle ∧ State.reset.cfg.fs.toNat = 0 ∧
    (idleWith 262144 0).seq = .idle ∧ (idleWith 262144 0).cfg.fs.toNat ≠ 0 ∧
    (idleWith 262144 0).cfg.argAddr.toNat + (idleWith 262144 0).cfg.argLen.toNat ≤ State.reset.params.ramDepth ∧
    1 ≤ (idleWith 262143 1).cfg.argLen.toNat ∧
    (idleWith 262143 1).cfg.argAddr.toNat + (idleWith 262143 1).cfg.argLen.toNat ≤ State.reset.params.ramDepth ∧
    2 ≤ (idleWith 262142 2).cfg.argLen.toNat ∧ (idleWith 0 65535).cfg.argLen.toNat ≤ 65535 ∧
    (idleWith 262142 2).cfg.argAddr.toNat + (idleWith 262142 2).cfg.argLen.toNat ≤ State.reset.params.ramDepth := by
  decide

/-- Each error at its first value: lengths 0, 65536 and 1, and one sample past the end of the RAM. -/
theorem witness_IssueChecksRaiseTheFirstFailingCode :
    decode 0x4#32 = .error .illegalOp ∧ decode 0x10#32 = .error .rsvdField ∧
    decode 0x2#32 = .ok .detect ∧ decode 0x3#32 = .ok .analyze ∧ decode 0x1#32 = .ok (.tone .freq0) ∧
    decode 0x0#32 = .ok .nop ∧ State.reset.seq = .idle ∧ State.reset.cfg.fs.toNat = 0 ∧
    (idleWith 0 0).seq = .idle ∧ (idleWith 0 0).cfg.fs.toNat ≠ 0 ∧
    ¬(1 ≤ (idleWith 0 0).cfg.argLen.toNat) ∧ ¬((idleWith 0 65536).cfg.argLen.toNat ≤ 65535) ∧
    ¬(2 ≤ (idleWith 0 1).cfg.argLen.toNat) ∧
    (idleWith 262142 3).params.ramDepth <
      (idleWith 262142 3).cfg.argAddr.toNat + (idleWith 262142 3).cfg.argLen.toNat ∧
    ¬((idleWith 262142 2).params.ramDepth <
      (idleWith 262142 2).cfg.argAddr.toNat + (idleWith 262142 2).cfg.argLen.toNat) := by decide

theorem witness_NopIssueIsAlwaysAccepted : State.reset.seq = .idle := by decide

theorem witness_UndecodableWordRaisesItsErrorAndNothingElse :
    State.reset.seq = .idle ∧ decode 0xF#32 = .error .illegalOp ∧ decode 0x20#32 = .error .rsvdField := by decide

theorem witness_NopCompletesWithNoOtherEffect : (inFlight .nop 0 0).seq = .busy := by decide

theorem witness_ToneCompletesWithTheSamplesOfItsPhase :
    toneInFlight.seq = .busy ∧ toneInFlight.lc.fs.toNat ≠ 0 ∧
    toneInFlight.lc.addr.toNat + toneInFlight.lc.len.toNat = toneInFlight.params.ramDepth := by decide

theorem witness_DetectCompletesWithTheComparisonOfItsTwoBins :
    let s := onSamples .detect bufferD8
    s.seq = .busy ∧ s.ram.wf ∧ s.lc.fs.toNat ≠ 0 ∧ 1 ≤ s.lc.len.toNat ∧ s.lc.len.toNat ≤ 65535 ∧
      s.lc.addr.toNat + s.lc.len.toNat ≤ s.params.ramDepth := by decide

/-- DETECT of one sample, the last of the RAM. -/
theorem witness_DetectCompletes_at_the_end :
    let s := inFlight .detect 262143 1
    s.seq = .busy ∧ s.ram.wf ∧ s.lc.fs.toNat ≠ 0 ∧ s.lc.len.toNat = 1 ∧
      s.lc.addr.toNat + s.lc.len.toNat = s.params.ramDepth := by decide

theorem witness_AnalyzeCompletesWithTheLowestPeakBin :
    let s := onSamples .analyze bufferD8
    s.seq = .busy ∧ s.ram.wf ∧ s.lc.fs.toNat ≠ 0 ∧ 2 ≤ s.lc.len.toNat ∧ s.lc.len.toNat ≤ 65535 ∧
      s.lc.addr.toNat + s.lc.len.toNat ≤ s.params.ramDepth := by decide

/-- ANALYZE of two samples, the last of the RAM. -/
theorem witness_AnalyzeCompletes_at_the_end :
    let s := inFlight .analyze 262142 2
    s.seq = .busy ∧ s.ram.wf ∧ s.lc.fs.toNat ≠ 0 ∧ s.lc.len.toNat = 2 ∧
      s.lc.addr.toNat + s.lc.len.toNat = s.params.ramDepth := by decide

theorem witness_CmdWriteRunsTheDecodedCommand :
    toneInFlight.seq = .busy ∧ State.reset.seq = .idle ∧ decode 0x1#32 = .ok (.tone .freq0) ∧
    decode 0x4#32 = .error .illegalOp := by decide

theorem witness_SequencerStepsExactlyWhileACommandIsInFlight :
    toneInFlight.seq = .busy ∧ toneInFlight.events = [] ∧ State.reset.seq = .idle ∧ State.reset.events = [] := by decide

/-- Offsets of each clause of the read map, at its edges (RAM_AW = 18, and 8 for the end of the RAM window). -/
theorem witness_HostReadAnswersAndChangesNothing :
    (0x1#20).toNat % 4 ≠ 0 ∧
    (0x7FFFC#20).toNat < 0x80000 ∧ (∀ r ∈ Reg.all, r.offset ≠ (0x03C#20).toNat) ∧
    0x80000 + 2 * (⟨0, 0⟩ : Config.Params).ramDepth ≤ (0x80200#20).toNat ∧
    0x80000 ≤ (0x80000#20).toNat ∧ toneInFlight.seq = .busy ∧
    Reg.offset .faImHi = (0x084#20).toNat ∧
    2 * 131071 < State.reset.params.ramDepth ∧ (0xFFFFC#20).toNat = 0x80000 + 4 * 131071 ∧
    State.reset.seq = .idle := by decide

theorem witness_RefusedWriteChangesNothing :
    (0x3#4 : BitVec 4) ≠ 0xF#4 ∧ (0x012#20).toNat % 4 ≠ 0 ∧
    (∀ r ∈ Reg.all, r.offset ≠ (0x088#20).toNat) ∧ (0x088#20).toNat < 0x80000 ∧
    0x80000 + 2 * (⟨0, 0⟩ : Config.Params).ramDepth ≤ (0x80200#20).toNat ∧
    0x80000 ≤ (0x80000#20).toNat ∧ toneInFlight.seq = .busy ∧
    Reg.offset .cmd = (0x014#20).toNat ∧ Reg.offset .ctrl = (0x00C#20).toNat ∧ (0x3#32).getLsbD 2 = false := by decide

/-- A refused read and a refused write. -/
theorem witness_ErrorResponseLeavesTheBlockUnchanged :
    nextHas (step (present State.reset (.transfer ⟨false, 0x03C#20, 0#32, 0#4⟩))) (fun t => t.response.slverr) = true ∧
    nextHas (step (present toneInFlight (.transfer ⟨true, 0x014#20, 0#32, 0xF#4⟩))) (fun t => t.response.slverr)
      = true := by decide

theorem witness_RamWindowWriteStoresBothSamples :
    State.reset.seq = .idle ∧ 2 * 0 < State.reset.params.ramDepth ∧ 2 * 131071 < State.reset.params.ramDepth := by decide

theorem witness_ConfigurationRegisterHoldsWhatIsWritten : State.reset.seq = .idle ∧ toneInFlight.seq = .busy := by decide

/-- Words that differ in reserved bits, and for STATUS also in its read-only bits. -/
theorem witness_ReadOnlyRegisterWriteIsIgnored :
    (∀ b < 3, (0x3#32).getLsbD b = (0xFFFFFFFB#32).getLsbD b) ∧
    (∀ b ∈ [1, 2], (0x6#32).getLsbD b = (0xFFFFFFFF#32).getLsbD b) := by decide

theorem witness_CtrlWriteSetsEnablesOrResets :
    (0x3#32).getLsbD 2 = false ∧ (0x5#32).getLsbD 2 = true ∧ State.reset.seq = .idle ∧ toneInFlight.seq = .busy := by
  decide

/-- The first and the last offset of the window, and the addresses just outside it. -/
theorem witness_HostAccessReachesTheBlockByItsWindow :
    0 < 2 ^ 20 ∧ 2 ^ 20 - 1 < 2 ^ 20 ∧ (⟨0, 1⟩ : Config.Params).base = 0x100000 ∧
    0xFFFFF < (⟨0, 1⟩ : Config.Params).base ∧ (⟨0, 1⟩ : Config.Params).base + 2 ^ 20 ≤ 0x200000 := by decide

/-- A soft reset of a TONE in flight, the first byte of its buffer and the byte before it. -/
theorem witness_SoftResetKeepsAllRamButAnAbortedTone :
    (0x4#32).getLsbD 2 = true ∧ toneInFlight.seq = .busy ∧ toneInFlight.lc.cmd = .tone .freq1 ∧
    sampleOffset toneInFlight.lc.addr.toNat ≤ 0xFFFF8 ∧
    0xFFFF8 < sampleOffset (toneInFlight.lc.addr.toNat + toneInFlight.lc.len.toNat) ∧
    ¬(sampleOffset toneInFlight.lc.addr.toNat ≤ 0xFFFF7) := by decide

theorem witness_IrqIsALevelOfCtrlAndStatus :
    State.reset.seq = .idle ∧ toneInFlight.seq = .busy ∧ (0x1#32).getLsbD 2 = false ∧
    (0x6#32).getLsbD 1 = true ∧ (0x6#32).getLsbD 2 = true ∧ isReset .powerOn = true ∧
    isReset (hostWriteReg .ctrl 0x4#32) = true := by decide

/-- A block whose interrupt is pending, and the STATUS write that acknowledges it. -/
theorem witness_IrqFallsOnlyByTheHost :
    let s := { State.reset with ctrl := ⟨true, false⟩, status := { Status.reset with done := true } }
    s.irq = true ∧ nextHas (step (present s (hostWriteReg .status 0x2#32))) (fun t => t.irq == false) = true := by decide

theorem witness_EveryStepKeepsTheInvariant :
    Inv toneInFlight ∧ nextHas (step toneInFlight) (fun _ => true) = true := ⟨toneInFlight_inv, by decide⟩

theorem witness_NoStepStopsTheMachine : Inv toneInFlight := toneInFlight_inv

/-- SEQ rises at an acceptance, and falls at a completion and at a reset. -/
theorem witness_SeqChangesOnlyByAcceptanceCompletionAndReset :
    nextHas (step (present State.reset (hostWriteReg .cmd 0x0#32))) (fun t => t.seq == .busy) = true ∧
    nextHas (step toneInFlight) (fun t => t.seq == .idle) = true ∧
    nextHas (step (present toneInFlight .powerOn)) (fun t => t.seq == .idle) = true := by decide

/-- FTW, a TD_ register and an FA_ register change at a completion. -/
theorem witness_ResultsChangeOnlyAtTheirCompletionOrReset :
    nextHas (step toneInFlight) (fun t => t.res.ftw != toneInFlight.res.ftw) = true ∧
    nextHas (step (onSamples .detect bufferD8)) (fun t => t.res.tdK1 != Results.reset.tdK1) = true ∧
    nextHas (step (onSamples .analyze bufferD8)) (fun t => t.res.faK != Results.reset.faK) = true := by decide

/-- A byte of the RAM changes at a host write and at the completion of a TONE. -/
theorem witness_RamBytesChangeOnlyByTheirWriters :
    let s := State.reset.storeSamples 0 [0x1111, 0x2222]
    let u := toneInFlight.storeSamples 262140 [0x1111]
    nextHas (step (present s (Script.wrRam 0 0 0))) (fun t => t.readByte 0x80000 != s.readByte 0x80000) = true ∧
    nextHas (step u) (fun t => t.readByte 0xFFFF8 != u.readByte 0xFFFF8) = true := by decide

/-- A STATUS write and a CTRL write without bit 2 while a command is in flight. -/
theorem witness_HostCannotDisturbACommandInFlight :
    toneInFlight.seq = .busy ∧ isSoftReset ⟨true, 0x010#20, 0x6#32, 0xF#4⟩ = false ∧
    isSoftReset ⟨true, 0x00C#20, 0x3#32, 0xF#4⟩ = false := by decide

theorem witness_CommandEffectIsIndependentOfTheInterleaving :
    toneInFlight.seq = .busy ∧ (∀ tr ∈ [(⟨true, 0x018#20, 0x6#32, 0xF#4⟩ : Transfer)], isSoftReset tr = false) ∧
    ∃ u, exec toneInFlight.lc.cmd toneInFlight = .next u :=
  ⟨by decide, by decide, _, exec_busy (by decide) (by decide)⟩

/-- A TONE in flight, before two transfers of the host. -/
theorem witness_CommandInFlightCompletes :
    let s := { toneInFlight with events := [Script.rd .status, Script.wr .fs 1] }
    Inv s ∧ s.seq = .busy ∧ ∀ e ∈ s.events, isReset e = false :=
  ⟨⟨⟨by decide, by decide, by decide, by decide⟩, ⟨by decide, by decide⟩, ⟨by decide, by decide⟩,
    by constructor <;> decide⟩, by decide, by decide⟩

/-- Two different states that a host cannot tell apart. -/
theorem witness_HiddenRegistersAreNeverObservable :
    let t := { State.reset with lc := latch .detect (idleWith 1 2), datapath := { Datapath.reset with phase := 1#32 } }
    observe State.reset = observe t ∧ State.reset ≠ t := ⟨rfl, by decide⟩

theorem witness_NoStepChangesTheParameters : nextHas (step State.reset) (fun _ => true) = true := by decide

theorem witness_TuningWordIsTheNearestInteger : 1 ≤ 1 ∧ 1 ≤ 4294967295 := by decide

/-- The ends and the middle of windows, and an index that is no exact half-integer. -/
theorem witness_WindowCoefficientsAreBoundedAndSymmetric :
    2 ≤ 2 ∧ 0 < 2 ∧ 1 < 2 ∧ 2 ≤ 65535 ∧ 65534 < 65535 ∧ 2 * (0 * 1024) % (2 * (2 - 1)) ≠ 2 - 1 ∧
    2 * (2 * 1024) % (2 * (5 - 1)) ≠ 5 - 1 := by decide

theorem witness_WindowedSampleIsTheFloorAndFits :
    1 ≤ 1 ∧ 0 < 1 ∧ windowCoeff 0 1 = 32768 ∧ 1 ≤ 65535 ∧ 65534 < 65535 := by decide

theorem witness_DftPartsAndPowerAreBounded :
    ([0x8000#16] : List Sample).length ≤ 65535 ∧ 0 < ([0x8000#16] : List Sample).length ∧
    (List.replicate 65535 0x8000#16).length ≤ 65535 ∧ 65534 < (List.replicate 65535 0x8000#16).length :=
  ⟨by decide, by decide, by rw [List.length_replicate], by rw [List.length_replicate]; decide⟩

theorem witness_BinIndexIsTheLeastNearestBin : 1 ≤ 1 ∧ 1 ≤ 65535 ∧ 1 ≤ 4294967295 := by decide

/-- Each clause at its edge: FS = 1; N = 3 with F exactly at the top positive bin; two frequencies of one bin. -/
theorem witness_BinIndexCornerCases :
    1 ≤ 1 ∧ 3 ≤ 3 ∧ (3 - 1) / 2 * 1 ≤ 1 * 3 ∧ 65535 ≤ 65535 ∧ 1000 ≤ 1004 ∧
    binIndex 1000 800 8000 = binIndex 1004 800 8000 := by decide

theorem witness_FrequencyWordIsExactBelowTwoToThe25 :
    2 ≤ 2 ∧ 0 < 2 / 2 ∧ 2 / 2 = 1 ∧ 2 ≤ 4 ∧ 1 < 4 / 2 ∧ 2 ≤ 4 / 2 ∧ 33554431 < 2 ^ 25 ∧ 1 ≤ 33554431 := by decide

theorem witness_ResultPairReadsBackTheInteger :
    (-2 ^ 63 : Int) ≤ -2 ^ 63 ∧ (-2 ^ 63 : Int) < 2 ^ 63 ∧ (-2 ^ 63 : Int) ≤ 2 ^ 63 - 1 ∧ (2 ^ 63 - 1 : Int) < 2 ^ 63 := by
  decide

/-- One bin by the length, one bin by equal frequencies, and silence. -/
theorem witness_DetectOfOneBinOrSilenceGivesZero :
    let s := inFlight .detect 262142 2
    let z := onSamples .detect [0, 0, 0, 0]
    let q := { z with lc := { z.lc with freq1 := z.lc.freq0 } }
    (s.seq = .busy ∧ s.ram.wf ∧ s.lc.fs.toNat ≠ 0 ∧ 1 ≤ s.lc.len.toNat ∧ s.lc.len.toNat ≤ 2 ∧
      s.lc.addr.toNat + s.lc.len.toNat ≤ s.params.ramDepth) ∧
    (z.seq = .busy ∧ z.ram.wf ∧ z.lc.fs.toNat ≠ 0 ∧ z.lc.len.toNat = 4 ∧
      z.lc.addr.toNat + z.lc.len.toNat ≤ z.params.ramDepth ∧ ∀ n, n < z.lc.len.toNat → sampleValue z n = 0) ∧
    (q.seq = .busy ∧ q.ram.wf ∧ q.lc.freq0 = q.lc.freq1 ∧
      binIndex q.lc.freq0.toNat q.lc.len.toNat q.lc.fs.toNat =
        binIndex q.lc.freq1.toNat q.lc.len.toNat q.lc.fs.toNat) := by decide

/-- Three samples, and silence. -/
theorem witness_AnalyzeOfOneBinOrSilenceFindsBinZero :
    let s := inFlight .analyze 262141 3
    let z := onSamples .analyze [0, 0, 0, 0]
    (s.seq = .busy ∧ s.ram.wf ∧ s.lc.fs.toNat ≠ 0 ∧ 2 ≤ s.lc.len.toNat ∧ s.lc.len.toNat ≤ 3 ∧
      s.lc.addr.toNat + s.lc.len.toNat ≤ s.params.ramDepth) ∧
    (z.seq = .busy ∧ z.ram.wf ∧ z.lc.fs.toNat ≠ 0 ∧ z.lc.len.toNat = 4 ∧
      z.lc.addr.toNat + z.lc.len.toNat ≤ z.params.ramDepth ∧ ∀ n, n < z.lc.len.toNat → sampleValue z n = 0) := by decide

/-- A block whose completed command is not yet acknowledged. -/
def doneUnacknowledged : State := { State.reset with status := { Status.reset with done := true } }

/-- The sequencer's turn, the next command, and each of the other ways DONE falls. -/
theorem witness_NoCompletionIsLostBeforeItsAcknowledge :
    Inv doneUnacknowledged ∧ doneUnacknowledged.status.done = true ∧ doneUnacknowledged.events = [] ∧
    nextHas (step doneUnacknowledged) (fun t => t.status.done) = true ∧
    nextHas (step (present doneUnacknowledged (hostWriteReg .cmd 0x0#32)))
      (fun t => t.seq == .busy && !t.status.done) = true ∧
    nextHas (step (present doneUnacknowledged (hostWriteReg .status 0x2#32))) (fun t => !t.status.done) = true ∧
    nextHas (step (present doneUnacknowledged (hostWriteReg .ctrl 0x4#32))) (fun t => !t.status.done) = true ∧
    nextHas (step (present doneUnacknowledged .powerOn)) (fun t => !t.status.done) = true :=
  ⟨⟨⟨by decide, by decide, by decide, by decide⟩, ⟨by decide, by decide⟩, ⟨by decide, by decide⟩,
    by constructor <;> decide⟩, by decide⟩

end Sys2Proof.Tests
end

section
/-! SUPPORT. Proofs about whole runs (spec/00_scope.md): the parameters never change, and host transfers do not reach
the effect of a command in flight. -/

namespace Sys2Proof.Machine

/-! ### The parameters -/

theorem MoveEffect.params_eq {s t : State} {m : Option Event} (h : MoveEffect s m t) : t.params = s.params := by
  cases h with
  | complete => simp
  | issue => simp
  | status => simp
  | _ => rfl

/-- Settles O41: no effect of a move writes the parameters. -/
theorem noStepChangesTheParameters : Obligations.NoStepChangesTheParameters := by
  unfold Obligations.NoStepChangesTheParameters
  intro s t h
  exact (step_effect h).params_eq

/-! ### A host transfer while a command is in flight -/

@[simp] theorem State.writeStatus_bit (s : State) (v : Word) : (s.writeStatus v).status.bit = s.status.bit := by
  unfold State.writeStatus State.ackError State.ackDone; split <;> split <;> rfl

@[simp] theorem State.writeStatus_hsMatch (s : State) (v : Word) :
    (s.writeStatus v).status.hsMatch = s.status.hsMatch := by
  unfold State.writeStatus State.ackError State.ackDone; split <;> split <;> rfl

/-- A STATUS write changes STATUS only (R39). -/
theorem State.writeStatus_eq (s : State) (v : Word) :
    s.writeStatus v = { s with status := (s.writeStatus v).status } := by
  unfold State.writeStatus State.ackError State.ackDone; split <;> split <;> rfl

/-- While a command is in flight, a transfer that is no soft reset changes STATUS and the bus response only, and of
STATUS neither BIT nor HS_MATCH (R87, R149). -/
theorem performTransfer_busy {s : State} {tr : Transfer} (hs : s.seq = .busy)
    (htr : Safety.isSoftReset tr = false) :
    ∃ st r, performTransfer tr s = .next { s with status := st, response := r } ∧
      st.bit = s.status.bit ∧ st.hsMatch = s.status.hsMatch := by
  obtain ⟨t, ht, he⟩ := performTransfer_effect tr s
  rw [ht]
  cases he with
  | answer _ r => exact ⟨s.status, r, rfl, rfl, rfl⟩
  | status a v =>
    refine ⟨(s.writeStatus v).status, .writeOk, ?_, by simp, by simp⟩
    rw [s.writeStatus_eq v]
    rfl
  | rest _ hm => simp at hm
  | complete _ hm => simp at hm
  | softReset _ h => simp [htr] at h
  | undecodable _ _ _ _ hi => simp [hs] at hi
  | issue _ _ _ _ hi => simp [hs] at hi
  | ctrl _ _ _ _ hi => simp [hs] at hi
  | config _ _ _ _ _ _ hi => simp [hs] at hi
  | ram _ _ _ _ _ hi => simp [hs] at hi

/-! ### Runs -/

theorem core_run_succ {s t : State} (k : Nat) (h : step s = .next t) :
    Sys2Proof.core.run (k + 1) s = Sys2Proof.core.run k t := by
  have hcore : Sys2Proof.core.step s = .next t := h
  simp only [Host.Core.run, hcore]

/-- A run through transfers that are no soft resets, made while a command is in flight, changes STATUS and the bus
response only, and of STATUS neither BIT nor HS_MATCH: the induction over the transfers that R92 (b) speaks of. -/
theorem core_run_transfers_busy (k : Nat) (evs : List Event) (ts : List Transfer) {s : State} (hs : s.seq = .busy)
    (hts : ∀ tr ∈ ts, Safety.isSoftReset tr = false) :
    ∃ st r, Sys2Proof.core.run (ts.length + k) { s with events := ts.map Event.transfer ++ evs } =
        Sys2Proof.core.run k { s with status := st, response := r, events := evs } ∧
      st.bit = s.status.bit ∧ st.hsMatch = s.status.hsMatch := by
  induction ts generalizing s with
  | nil => exact ⟨s.status, s.response, by simp, rfl, rfl⟩
  | cons tr ts ih =>
    obtain ⟨htr, hts⟩ := List.forall_mem_cons.mp hts
    let s₁ : State := { s with events := ts.map Event.transfer ++ evs }
    obtain ⟨st, r, hstep, hbit, hhs⟩ := performTransfer_busy (s := s₁) hs htr
    obtain ⟨st', r', hrun, hbit', hhs'⟩ := ih (s := { s with status := st, response := r }) hs hts
    refine ⟨st', r', ?_, hbit'.trans hbit, hhs'.trans hhs⟩
    rw [List.length_cons, Nat.add_right_comm]
    exact (core_run_succ (s := Safety.present s₁ (.transfer tr)) _ hstep).trans hrun

/-! ### The effect of a command -/

/-- The effect of a command reads neither STATUS, the bus response nor the waiting moves: with others in their place it
leaves the same RAM and results, and the same BIT and HS_MATCH if those two were the same before. -/
theorem commandEffect_other_status (i : Instr) (s : State) (st : Status) (r : Response) (evs : List Event)
    (hbit : st.bit = s.status.bit) (hhs : st.hsMatch = s.status.hsMatch) :
    let t := { s with status := st, response := r, events := evs }
    (commandEffect i t).ram = (commandEffect i s).ram ∧
    (commandEffect i t).res = (commandEffect i s).res ∧
    (commandEffect i t).status.bit = (commandEffect i s).status.bit ∧
    (commandEffect i t).status.hsMatch = (commandEffect i s).status.hsMatch := by
  cases i with
  | nop => exact ⟨rfl, rfl, hbit, hhs⟩
  | tone fsel => exact ⟨rfl, rfl, hbit, hhs⟩
  | detect => exact ⟨rfl, rfl, rfl, hhs⟩
  | analyze => exact ⟨rfl, rfl, hbit, rfl⟩

/-- Settles O38: the transfers leave what the completion reads as it was (`core_run_transfers_busy`), and so the
completion leaves what an immediate one would have left (`commandEffect_other_status`). -/
theorem commandEffectIsIndependentOfTheInterleaving :
    Obligations.CommandEffectIsIndependentOfTheInterleaving := by
  unfold Obligations.CommandEffectIsIndependentOfTheInterleaving
  intro s u ts hs hts hu
  rcases exec_cases hu with ⟨hi, -⟩ | ⟨-, hc, rfl⟩
  · simp [hs] at hi
  obtain ⟨st, r, hrun, hbit, hhs⟩ := core_run_transfers_busy 1 (.sequencer :: s.events) ts hs hts
  obtain ⟨hram, hres, hbit', hhs'⟩ := commandEffect_other_status s.lc.cmd s st r s.events hbit hhs
  let t : State := { s with status := st, response := r }
  have hturn : step (Safety.present t .sequencer) = .next (commandEffect s.lc.cmd t).finish := by
    rw [step_present]
    exact (sequencerTurn_busy (s := t) hs).trans (exec_busy hs hc)
  have hdraw : (commandEffect s.lc.cmd t).ramDraw = (commandEffect s.lc.cmd s).ramDraw := by simp [t]
  exact ⟨_, hrun.trans (core_run_succ 0 hturn), hram, hdraw, hres, hbit', hhs', rfl, rfl⟩

end Sys2Proof.Machine
end

section
/-! SUPPORT. One equation for each case of a step, of a host transfer and of a register write. -/

namespace Sys2Proof.Machine

/-! ### A step -/

theorem step_of_events_nil {s : State} (h : s.events = []) : step s = sequencerTurn s := by
  unfold step; rw [h]

theorem step_of_events_cons {s : State} {e : Event} {rest : List Event} (h : s.events = e :: rest) :
    step s = performEvent e { s with events := rest } := by
  unfold step; rw [h]

/-- A completion whose latched operands the issue checks refuse is a fault. -/
theorem exec_busy_of_refused {i : Instr} {s : State} {e : CommandError} (h : s.seq = .busy)
    (hc : checkLatched i s = some e) : exec i s = .fault .latchNotAccepted := by
  rw [exec_eq]; unfold runCommand; rw [h, hc]

/-! ### Host reads -/

theorem busRead_unmapped {a : Nat} {s : State} (h : target s.params a = .unmapped) :
    busRead a s = s.respond .readError := by
  unfold busRead; rw [h]

theorem busRead_reg {a : Nat} {s : State} {r : Reg} (h : target s.params a = .reg r) :
    busRead a s = s.respond (.readOk (s.readReg r)) := by
  unfold busRead; rw [h]

theorem busRead_ramWord {a : Nat} {s : State} {j : Nat} (h : target s.params a = .ramWord j) :
    busRead a s = if s.busy then s.respond .readError else s.respond (.readOk (s.readRamWord j)) := by
  unfold busRead; rw [h]

/-! ### Host writes -/

theorem busWrite_partial {strb : BitVec 4} (h : strb ≠ 0xF#4) (a : Nat) (v : Word) (s : State) :
    busWrite a strb v s = .next (s.respond .writeError) := if_pos h

theorem busWrite_unmapped {a : Nat} {s : State} (h : target s.params a = .unmapped) (v : Word) :
    busWrite a 0xF#4 v s = .next (s.respond .writeError) := by
  unfold busWrite; rw [if_neg (not_not.mpr rfl), h]

theorem busWrite_reg {a : Nat} {s : State} {r : Reg} (h : target s.params a = .reg r) (v : Word) :
    busWrite a 0xF#4 v s = writeReg r v s := by
  unfold busWrite; rw [if_neg (not_not.mpr rfl), h]

theorem busWrite_ramWord {a : Nat} {s : State} {j : Nat} (h : target s.params a = .ramWord j) (v : Word) :
    busWrite a 0xF#4 v s =
      if s.busy then .next (s.respond .writeError) else .next ((s.storeRamWord j v).respond .writeOk) := by
  unfold busWrite; rw [if_neg (not_not.mpr rfl), h]

/-- A full-word write at a register's offset is the write to that register. -/
theorem step_hostWriteReg (s : State) (r : Reg) (v : Word) :
    step (Safety.present s (Safety.hostWriteReg r v)) = writeReg r v s :=
  busWrite_reg (by rw [offset_toNat]; exact target_reg s.params r) v

/-! ### Register writes -/

theorem writeCmd_busy {s : State} (h : s.seq = .busy) (w : Word) : writeCmd w s = .next (s.respond .writeError) :=
  if_pos (busy_eq_true.mpr h)

/-- A word that does not decode raises its error (R114, R141, R143). -/
theorem writeCmd_error {s : State} {w : Word} {e : CommandError} (h : s.seq = .idle) (hd : decode w = .error e) :
    writeCmd w s = .next ((s.respond .writeOk).clearOutcome.raise e) := by
  unfold writeCmd; rw [busy_eq_false.mpr h, if_neg Bool.false_ne_true, hd]

/-- A word that decodes is issued (R140). -/
theorem writeCmd_ok {s : State} {w : Word} {i : Instr} (h : s.seq = .idle) (hd : decode w = .ok i) :
    writeCmd w s = .next (issue i (s.respond .writeOk)) := by
  unfold writeCmd; rw [busy_eq_false.mpr h, if_neg Bool.false_ne_true, hd]; exact exec_idle i h

/-- R51: a write to a read-only register is accepted and ignored. -/
theorem writeReg_of_ro {r : Reg} (h : r.access = .ro) (v : Word) (s : State) :
    writeReg r v s = .next (s.respond .writeOk) := by
  unfold writeReg; rw [h]

theorem writeReg_status (v : Word) (s : State) :
    writeReg .status v s = .next ((s.writeStatus v).respond .writeOk) := rfl

theorem writeReg_ctrl (v : Word) (s : State) : writeReg .ctrl v s = .next (writeCtrl v s) := rfl

theorem writeReg_of_rw {r : Reg} (h : r.access = .rw) (hr : r ≠ .ctrl) (v : Word) (s : State) :
    writeReg r v s = .next (writeConfig r v s) := by
  unfold writeReg; rw [h]; exact if_neg hr

theorem writeCtrl_reset {v : Word} (hv : v.getLsbD 2 = true) (s : State) :
    writeCtrl v s = s.softReset.respond .writeOk := if_pos hv

theorem writeCtrl_busy {v : Word} {s : State} (hv : v.getLsbD 2 = false) (hs : s.seq = .busy) :
    writeCtrl v s = s.respond .writeError := by
  unfold writeCtrl; rw [hv, if_neg Bool.false_ne_true, if_pos (busy_eq_true.mpr hs)]

theorem writeCtrl_idle {v : Word} {s : State} (hv : v.getLsbD 2 = false) (hs : s.seq = .idle) :
    writeCtrl v s = { s with ctrl := ctrlOfWord v, response := .writeOk } := by
  unfold writeCtrl; rw [hv, if_neg Bool.false_ne_true, busy_eq_false.mpr hs, if_neg Bool.false_ne_true]

theorem writeConfig_busy {s : State} (hs : s.seq = .busy) (r : Reg) (v : Word) :
    writeConfig r v s = s.respond .writeError := if_pos (busy_eq_true.mpr hs)

theorem writeConfig_idle {s : State} (hs : s.seq = .idle) (r : Reg) (v : Word) :
    writeConfig r v s = { s with cfg := s.cfg.set r v, response := .writeOk } := by
  unfold writeConfig; rw [busy_eq_false.mpr hs, if_neg Bool.false_ne_true]

end Sys2Proof.Machine
end

section
/-! SUPPORT. The invariant of the machine (spec/10_state.md R38, R45 to R49, R52, R53, spec/40_sequencer.md R143): each
of its four parts is kept by everything one move can do (`MoveEffect`). -/

namespace Sys2Proof.Machine

open Sys2Proof.Safety

/-! ### STATUS -/

/-- A refused issue leaves STATUS coherent: DONE is 0 and ERRCODE names the error (R141, R143, R271). -/
theorem statusOk_clearOutcome_raise {s : State} (e : CommandError) (hs : s.seq = .idle) :
    StatusOk (s.clearOutcome.raise e) where
  notBoth := by simp
  codeIffErr := by cases e <;> simp [errorCode]
  codeDefined := by cases e <;> simp [errorCode]
  clearWhileBusy := by simp [hs]

theorem statusOk_clearOutcome_accept (s : State) (i : Instr) : StatusOk (s.clearOutcome.accept i) :=
  ⟨by simp, by simp, by simp, by simp⟩

theorem statusOk_issue {s : State} (i : Instr) (hs : s.seq = .idle) : StatusOk (issue i s) := by
  rcases issue_cases i s with ⟨e, -, h⟩ | ⟨-, h⟩ <;> rw [h]
  · exact statusOk_clearOutcome_raise e hs
  · exact statusOk_clearOutcome_accept s i

/-- What a STATUS write leaves in STATUS (R39). -/
theorem State.writeStatus_status (s : State) (v : Word) :
    (s.writeStatus v).status = { s.status with
      done := s.status.done && !v.getLsbD 1
      err := s.status.err && !v.getLsbD 2
      errcode := if v.getLsbD 2 then 0#4 else s.status.errcode } := by
  unfold State.writeStatus State.ackDone State.ackError
  cases v.getLsbD 1 <;> cases v.getLsbD 2 <;> simp

theorem statusOk_writeStatus {s : State} (v : Word) (h : StatusOk s) : StatusOk (s.writeStatus v) where
  notBoth := by
    have := h.notBoth
    simp only [State.writeStatus_status, Bool.and_eq_true]
    tauto
  codeIffErr := by
    rw [State.writeStatus_status]
    cases v.getLsbD 2 <;> simp [h.codeIffErr]
  codeDefined := by
    rw [State.writeStatus_status]
    cases v.getLsbD 2 <;> simp [h.codeDefined]
  clearWhileBusy := fun hb => by
    obtain ⟨hd, he⟩ := h.clearWhileBusy (by simpa using hb)
    simp [State.writeStatus_status, hd, he]

/-- A completion sets DONE, and ERR is 0 because it was while the command was in flight (R146). -/
theorem statusOk_complete {s : State} (i : Instr) (hs : s.seq = .busy) (h : StatusOk s) :
    StatusOk (commandEffect i s).finish where
  notBoth := by simp [(h.clearWhileBusy hs).2]
  codeIffErr := by simpa using h.codeIffErr
  codeDefined := by simpa using h.codeDefined
  clearWhileBusy := by simp

theorem statusOk_reset {s : State} (h : s.status = Status.reset) : StatusOk s := by
  constructor <;> simp [h, Status.reset]

theorem MoveEffect.statusOk {s t : State} {m : Option Event} (he : MoveEffect s m t) (h : StatusOk s) :
    StatusOk t := by
  cases he with
  | complete _ _ hs => exact statusOk_complete _ hs h
  | powerOn => exact statusOk_reset rfl
  | softReset => exact statusOk_reset rfl
  | undecodable _ _ e _ hs => exact statusOk_clearOutcome_raise e hs
  | issue _ _ i _ hs => exact statusOk_issue i hs
  | status _ v =>
    have := statusOk_writeStatus v h
    exact ⟨this.notBoth, this.codeIffErr, this.codeDefined, this.clearWhileBusy⟩
  | rest | answer | ctrl | config | ram => exact ⟨h.notBoth, h.codeIffErr, h.codeDefined, h.clearWhileBusy⟩

/-! ### LC -/

/-- While idle, the invariant says nothing of LC. -/
theorem latchOk_of_idle {s : State} (hs : s.seq = .idle) : LatchOk s := by
  constructor <;> simp [hs]

/-- An acceptance latches the live registers, which have just passed the checks (R142, R143). -/
theorem latchOk_issue {s : State} (i : Instr) (hs : s.seq = .idle) : LatchOk (issue i s) := by
  rcases issue_cases i s with ⟨e, -, h⟩ | ⟨hc, h⟩ <;> rw [h]
  · exact latchOk_of_idle hs
  · exact ⟨fun _ => rfl, fun _ => hc⟩

/-- Nothing that LC is compared with or checked against is written. -/
theorem latchOk_congr {s t : State} (h : LatchOk s) (hseq : t.seq = s.seq) (hlc : t.lc = s.lc) (hcfg : t.cfg = s.cfg)
    (hctrl : t.ctrl = s.ctrl) (hparams : t.params = s.params) : LatchOk t where
  live hb := by
    rw [hlc, h.live (hseq ▸ hb)]
    simp only [latch, hcfg, hctrl]
  accepted hb := by
    have := h.accepted (hseq ▸ hb)
    rwa [checkLatched, hlc, hparams]

theorem MoveEffect.latchOk {s t : State} {m : Option Event} (he : MoveEffect s m t) (h : LatchOk s) : LatchOk t := by
  cases he with
  | issue _ _ i _ hs => exact latchOk_issue (s := s.respond .writeOk) i hs
  | answer => exact latchOk_congr h rfl rfl rfl rfl rfl
  | status _ v => apply latchOk_congr h <;> simp
  | complete | powerOn | softReset => exact latchOk_of_idle rfl
  | rest _ _ hs | undecodable _ _ _ _ hs | ctrl _ _ _ _ hs | config _ _ _ _ _ _ hs | ram _ _ _ _ _ hs =>
    exact latchOk_of_idle hs

/-! ### The sample RAM -/

theorem ramOk_congr {s t : State} (h : RamOk s) (hram : t.ram = s.ram) (hparams : t.params = s.params) : RamOk t where
  wf := hram ▸ h.wf
  inWindow := by rw [hram, hparams]; exact h.inWindow

/-- A store of `n` samples that lie inside the RAM (R53, R89). -/
theorem ramOk_store {s t : State} {addr n : Nat} {bs : List Byte} (h : RamOk s) (hparams : t.params = s.params)
    (hram : t.ram = s.ram.store (sampleOffset addr) bs) (hlen : bs.length = 2 * n)
    (hn : addr + n ≤ s.params.ramDepth) : RamOk t where
  wf := hram ▸ Memory.store_wf _ _ h.wf
  inWindow := by
    rw [hram, hparams]
    refine Memory.store_bounds h.inWindow ?_ ?_ <;> simp only [sampleOffset, ramEnd] <;> omega

/-- The buffer of a TONE in flight lies inside the RAM (R143). -/
theorem buffer_le_ramDepth {s : State} {fsel : FreqSel} (h : checkLatched (.tone fsel) s = none) :
    s.lc.addr.toNat + s.lc.len.toNat ≤ s.params.ramDepth :=
  (checkOperands_eq_none.mp h).2.2 rfl

/-- Of the commands only a TONE writes the RAM, and only its buffer (R89). -/
theorem ramOk_commandEffect {s : State} {i : Instr} (hc : checkLatched i s = none) (h : RamOk s) :
    RamOk (commandEffect i s) := by
  cases i with
  | nop => exact h
  | tone fsel =>
    exact ramOk_store h (toneEffect_params fsel s) rfl
      (by rw [length_flatMap_sampleBytes, length_toneSamples]) (buffer_le_ramDepth hc)
  | detect => exact ramOk_congr h (detectEffect_ram s) (detectEffect_params s)
  | analyze => exact ramOk_congr h (analyzeEffect_ram s) (analyzeEffect_params s)

/-- What a soft reset loses is the buffer of a TONE in flight, which lies inside the RAM (R311). -/
theorem ramOk_abortRam {s : State} (hl : LatchOk s) (h : RamOk s) : RamOk s.abortRam := by
  unfold State.abortRam
  split
  · next fsel hs hcmd =>
    exact ramOk_store h rfl rfl (by simp) (buffer_le_ramDepth (hcmd ▸ hl.accepted hs))
  · exact h

theorem State.abortRam_params (s : State) : s.abortRam.params = s.params := by
  unfold State.abortRam; split <;> rfl

theorem MoveEffect.ramOk {s t : State} {m : Option Event} (he : MoveEffect s m t) (hl : LatchOk s) (h : RamOk s) :
    RamOk t := by
  cases he with
  | complete _ _ _ hc => exact ramOk_congr (ramOk_commandEffect hc h) rfl rfl
  | powerOn => exact ⟨List.Pairwise.nil, by simp⟩
  | softReset => exact ramOk_congr (ramOk_abortRam hl h) rfl s.abortRam_params.symm
  | ram _ v j _ hj =>
    have := ramDepth_bounds s.params
    exact ramOk_store h rfl rfl (n := 2) (length_flatMap_sampleBytes _) (by omega)
  | issue | status => apply ramOk_congr h <;> simp
  | rest | answer | undecodable | ctrl | config => exact ramOk_congr h rfl rfl

/-! ### The results -/

theorem resultsOk_congr {s t : State} (h : ResultsOk s) (hres : t.res = s.res) : ResultsOk t := by
  cases s; cases t; cases hres
  exact ⟨h.tdK0, h.tdK1, h.faK, h.tdRe0, h.tdIm0, h.tdRe1, h.tdIm1, h.faRe, h.faIm⟩

theorem resultsOk_reset {s : State} (h : s.res = Results.reset) : ResultsOk s := by
  constructor <;> rw [h] <;> decide

/-- A DFT part below the bound of R205 is one that a result pair may hold (R46). -/
theorem pairOk_ofInt {r : Int} (h : |r| < 2 ^ 45) : PairOk (Pair64.ofInt r) := by
  rw [PairOk, Pair64.toInt_ofInt_of_lt h]
  rw [Int.abs_eq_natAbs] at h
  exact_mod_cast h

/-- A bin below 32768 stays below it in its register (R45, R47). -/
theorem bin_toNat_lt {k : Nat} (h : k < 32768) : (BitVec.ofNat 32 k).toNat < 32768 :=
  lt_of_le_of_lt (BitVec.toNat_ofNat k 32 ▸ Nat.mod_le _ _) h

theorem binIndex_lt_of_le {f len fs : Nat} (h : len ≤ 65535) : binIndex f len fs < 32768 := by
  have : binIndex f len fs ≤ (len - 1) / 2 := Nat.min_le_right _ _
  omega

theorem dftRe_buffer_lt {s : State} (k : Nat) (h : s.ram.wf) (hl : s.lc.len.toNat ≤ 65535) :
    |dftRe k s.lc.len.toNat (windowed s.lc.len.toNat 0 (buffer s))| < 2 ^ 45 :=
  dftRe_buffer s k h ▸ reSum_lt s k h hl

theorem dftIm_buffer_lt {s : State} (k : Nat) (h : s.ram.wf) (hl : s.lc.len.toNat ≤ 65535) :
    |dftIm k s.lc.len.toNat (windowed s.lc.len.toNat 0 (buffer s))| < 2 ^ 45 :=
  dftIm_buffer s k h ▸ imSum_lt s k h hl

theorem resultsOk_detectEffect {s : State} (hc : checkLatched .detect s = none) (hr : s.ram.wf) (h : ResultsOk s) :
    ResultsOk (detectEffect s) := by
  have hl := ((lengthSupported_detect _).mp (checkOperands_eq_none.mp hc).2.1).2
  exact { h with
    tdK0 := bin_toNat_lt (binIndex_lt_of_le hl)
    tdK1 := bin_toNat_lt (binIndex_lt_of_le hl)
    tdRe0 := pairOk_ofInt (dftRe_buffer_lt _ hr hl)
    tdIm0 := pairOk_ofInt (dftIm_buffer_lt _ hr hl)
    tdRe1 := pairOk_ofInt (dftRe_buffer_lt _ hr hl)
    tdIm1 := pairOk_ofInt (dftIm_buffer_lt _ hr hl) }

theorem resultsOk_analyzeEffect {s : State} (hc : checkLatched .analyze s = none) (hr : s.ram.wf) (h : ResultsOk s) :
    ResultsOk (analyzeEffect s) := by
  obtain ⟨hl2, hl⟩ := (lengthSupported_analyze _).mp (checkOperands_eq_none.mp hc).2.1
  have hk := (peakBin_spec (fun k => dftPower k s.lc.len.toNat (windowed s.lc.len.toNat 0 (buffer s)))
    (halfN := s.lc.len.toNat / 2) (by omega)).1
  exact { h with
    faK := bin_toNat_lt (lt_of_lt_of_le hk (by omega))
    faRe := pairOk_ofInt (dftRe_buffer_lt _ hr hl)
    faIm := pairOk_ofInt (dftIm_buffer_lt _ hr hl) }

theorem resultsOk_commandEffect {s : State} {i : Instr} (hc : checkLatched i s = none) (hr : s.ram.wf)
    (h : ResultsOk s) : ResultsOk (commandEffect i s) := by
  cases i with
  | nop => exact h
  | tone fsel => exact { h with }
  | detect => exact resultsOk_detectEffect hc hr h
  | analyze => exact resultsOk_analyzeEffect hc hr h

theorem MoveEffect.resultsOk {s t : State} {m : Option Event} (he : MoveEffect s m t) (hr : s.ram.wf)
    (h : ResultsOk s) : ResultsOk t := by
  cases he with
  | complete _ _ _ hc => exact resultsOk_congr (resultsOk_commandEffect hc hr h) rfl
  | powerOn => exact resultsOk_reset rfl
  | softReset => exact resultsOk_reset rfl
  | issue | status => apply resultsOk_congr h; simp
  | rest | answer | undecodable | ctrl | config | ram => exact resultsOk_congr h rfl

/-! ### The whole invariant -/

theorem MoveEffect.inv {s t : State} {m : Option Event} (he : MoveEffect s m t) (h : Inv s) : Inv t where
  status := he.statusOk h.status
  latch := he.latchOk h.latch
  ram := he.ramOk h.latch h.ram
  results := he.resultsOk h.ram.wf h.results

/-- The invariant does not speak of the moves still to come. -/
theorem inv_events {s : State} (evs : List Event) (h : Inv s) : Inv { s with events := evs } where
  status := ⟨h.status.notBoth, h.status.codeIffErr, h.status.codeDefined, h.status.clearWhileBusy⟩
  latch := latchOk_congr h.latch rfl rfl rfl rfl rfl
  ram := ramOk_congr h.ram rfl rfl
  results := resultsOk_congr h.results rfl

/-- Settles O32: a step is an effect of the next move, and each part of the invariant outlives it. -/
theorem everyStepKeepsTheInvariant : Obligations.EveryStepKeepsTheInvariant := by
  unfold Obligations.EveryStepKeepsTheInvariant
  intro s t h hstep
  exact (step_effect hstep).inv (inv_events _ h)

end Sys2Proof.Machine
end

section
/-! SUPPORT. The register map read and written by the host (spec/10_state.md R32 to R51). -/

namespace Sys2Proof.Machine

open Sys2Proof.Safety

/-! ### STATUS (R38, R39) -/

section statusWord

variable (s : State)

theorem statusWord_getLsbD_busy : s.statusWord.getLsbD 0 = s.busy := by
  simp only [State.statusWord, BitVec.getLsbD_append]; simp

theorem statusWord_getLsbD_done : s.statusWord.getLsbD 1 = s.status.done := by
  simp only [State.statusWord, BitVec.getLsbD_append]; simp

theorem statusWord_getLsbD_err : s.statusWord.getLsbD 2 = s.status.err := by
  simp only [State.statusWord, BitVec.getLsbD_append]; simp

theorem statusWord_getLsbD_bit : s.statusWord.getLsbD 3 = s.status.bit := by
  simp only [State.statusWord, BitVec.getLsbD_append]; simp

theorem statusWord_getLsbD_hsMatch : s.statusWord.getLsbD 4 = s.status.hsMatch := by
  simp only [State.statusWord, BitVec.getLsbD_append]; simp

theorem statusWord_errcode : s.statusWord.extractLsb' 8 4 = s.status.errcode := by
  unfold State.statusWord
  simp (disch := decide) only [BitVec.extractLsb'_append_eq_of_le]
  exact BitVec.extractLsb'_append_eq_right

theorem statusWord_rsvd_low : s.statusWord.extractLsb' 5 3 = 0#3 := by
  unfold State.statusWord
  simp (disch := decide) only [BitVec.extractLsb'_append_eq_of_le]
  exact BitVec.extractLsb'_append_eq_right

theorem statusWord_rsvd_high : s.statusWord.extractLsb' 12 20 = 0#20 := by
  unfold State.statusWord
  simp (disch := decide) only [BitVec.extractLsb'_append_eq_of_le]
  rfl

end statusWord

/-- Settles O24, from the word STATUS reads as, field by field. -/
theorem statusReadsItsFieldsAtTheirBits : Obligations.StatusReadsItsFieldsAtTheirBits := by
  unfold Obligations.StatusReadsItsFieldsAtTheirBits
  intro s
  have hbusy : s.busy = decide (s.seq = .busy) := rfl
  exact ⟨hbusy ▸ statusWord_getLsbD_busy s, statusWord_getLsbD_done s, statusWord_getLsbD_err s,
    statusWord_getLsbD_bit s, statusWord_getLsbD_hsMatch s, statusWord_rsvd_low s, statusWord_errcode s,
    statusWord_rsvd_high s⟩

/-- Settles O22: a STATUS write is what `State.writeStatus_status` says of STATUS, and nothing else. -/
theorem statusWriteClearsDoneAndErr : Obligations.StatusWriteClearsDoneAndErr := by
  unfold Obligations.StatusWriteClearsDoneAndErr
  intro s v
  rw [step_hostWriteReg, writeReg_status, State.writeStatus_eq, State.writeStatus_status]
  rfl

/-! ### CTRL (R37) -/

theorem ctrlWord_rsvd (c : Ctrl) : (ctrlWord c).extractLsb' 2 30 = 0#30 := by
  unfold ctrlWord
  simp (disch := decide) only [BitVec.extractLsb'_append_eq_of_le]
  rfl

theorem ctrlWord_toNat (c : Ctrl) :
    (ctrlWord c).toNat = (if c.irqEn then 1 else 0) + (if c.fmap then 2 else 0) := by
  obtain ⟨irqEn, fmap⟩ := c
  cases irqEn <;> cases fmap <;> rfl

theorem ctrlWord_reset : ctrlWord Ctrl.reset = 0#32 := by decide

/-- Settles O23, from the three cases of a CTRL write. -/
theorem ctrlWriteSetsEnablesOrResets : Obligations.CtrlWriteSetsEnablesOrResets := by
  unfold Obligations.CtrlWriteSetsEnablesOrResets
  intro s v
  rw [step_hostWriteReg, writeReg_ctrl]
  refine ⟨fun hv hs => ?_, fun hv hs => ?_, fun hv => ⟨?_, ctrlWord_reset⟩, ctrlWord_toNat s.ctrl⟩
  · rw [writeCtrl_idle hv hs]; rfl
  · rw [writeCtrl_busy hv hs]; rfl
  · rw [writeCtrl_reset hv]; rfl

/-! ### Read-only registers and hardwired words (R34, R35, R51) -/

/-- A CTRL write depends on bits 0, 1 and 2 of the word only. -/
theorem writeCtrl_congr {v v' : Word} (h : ∀ b < 3, v.getLsbD b = v'.getLsbD b) (s : State) :
    writeCtrl v s = writeCtrl v' s := by
  unfold writeCtrl ctrlOfWord
  rw [h 0 (by decide), h 1 (by decide), h 2 (by decide)]

/-- A STATUS write depends on bits 1 and 2 of the word only. -/
theorem State.writeStatus_congr {v v' : Word} (h : ∀ b ∈ [1, 2], v.getLsbD b = v'.getLsbD b) (s : State) :
    s.writeStatus v = s.writeStatus v' := by
  unfold State.writeStatus State.ackDone State.ackError
  rw [h 1 (by decide), h 2 (by decide)]

theorem step_hostWriteReg_of_ro {r : Reg} (h : r.access = .ro) (s : State) (v : Word) :
    step (present s (hostWriteReg r v)) = .next { s with response := .writeOk } := by
  rw [step_hostWriteReg, writeReg_of_ro h]; rfl

/-- Settles O21: the registers of its list are the read-only ones, and a CTRL or STATUS write reads the writable bits
only. -/
theorem readOnlyRegisterWriteIsIgnored : Obligations.ReadOnlyRegisterWriteIsIgnored := by
  unfold Obligations.ReadOnlyRegisterWriteIsIgnored
  intro s v v'
  refine ⟨fun r hr => step_hostWriteReg_of_ro ?_ s v, fun h => ?_, fun h => ?_, ctrlWord_rsvd s.ctrl,
    statusWord_rsvd_low s, statusWord_rsvd_high s⟩
  · revert r; decide
  · simp only [step_hostWriteReg, writeReg_ctrl, writeCtrl_congr h s]
  · simp only [step_hostWriteReg, writeReg_status, State.writeStatus_congr h s]

theorem ramAw_bounds (p : Config.Params) : 8 ≤ p.ramAw ∧ p.ramAw ≤ 18 := by
  have := p.ramAwLess8.isLt
  unfold Config.Params.ramAw
  omega

/-- The fields of PARAMS (R35). -/
theorem paramsWord_fields (p : Config.Params) :
    ((paramsWord p).extractLsb' 0 5).toNat = p.ramAw ∧ (paramsWord p).extractLsb' 5 3 = 0#3 ∧
    (paramsWord p).extractLsb' 8 8 = 10#8 ∧ (paramsWord p).extractLsb' 16 8 = 32#8 ∧
    (paramsWord p).extractLsb' 24 8 = 0#8 := by
  have := ramAw_bounds p
  unfold paramsWord
  refine ⟨?_, ?_⟩
  · rw [BitVec.extractLsb'_append_eq_right, BitVec.toNat_ofNat, Nat.mod_eq_of_lt (by omega)]
  · simp (disch := decide) only [BitVec.extractLsb'_append_eq_of_le]
    exact ⟨BitVec.extractLsb'_append_eq_right, BitVec.extractLsb'_append_eq_right,
      BitVec.extractLsb'_append_eq_right, rfl⟩

/-- Settles O25: ID, VERSION and PARAMS are read-only constants. -/
theorem hardwiredRegistersReadTheirConstants : Obligations.HardwiredRegistersReadTheirConstants := by
  unfold Obligations.HardwiredRegistersReadTheirConstants
  intro s
  obtain ⟨h0, h5, h8, h16, h24⟩ := paramsWord_fields s.params
  obtain ⟨hlow, hhigh⟩ := ramAw_bounds s.params
  refine ⟨rfl, rfl, rfl, h0, h5, h8, h16, h24, hlow, hhigh, fun v r hr => step_hostWriteReg_of_ro ?_ s v⟩
  revert r; decide

/-! ### Argument and configuration registers (R41 to R43) -/

/-- The argument and configuration registers. -/
def Reg.configs : List Reg := [.argAddr, .argLen, .fs, .freq0, .freq1, .startFreq, .tol, .freqT]

theorem access_of_mem_configs : ∀ r ∈ Reg.configs, r.access = .rw ∧ r ≠ .ctrl := by decide

/-- What every register reads after a write to a configuration register. -/
theorem readReg_setConfig (s : State) (v : Word) (r' : Reg) :
    ∀ r ∈ Reg.configs, ({ s with cfg := s.cfg.set r v, response := .writeOk } : State).readReg r' =
      if r' = r then v else s.readReg r' := by
  simp only [Reg.configs, List.forall_mem_cons, List.not_mem_nil, false_imp_iff, implies_true, and_true]
  refine ⟨?_, ?_, ?_, ?_, ?_, ?_, ?_, ?_⟩ <;> cases r' <;> rfl

/-- Settles O20, from the two cases of a configuration write and what each register then reads. -/
theorem configurationRegisterHoldsWhatIsWritten : Obligations.ConfigurationRegisterHoldsWhatIsWritten := by
  unfold Obligations.ConfigurationRegisterHoldsWhatIsWritten
  intro s v r hr
  obtain ⟨hrw, hne⟩ := access_of_mem_configs r hr
  rw [step_hostWriteReg, writeReg_of_rw hrw hne]
  refine ⟨fun hs => ?_, fun hs => ?_, ?_⟩
  · rw [writeConfig_idle hs]
    refine ⟨_, rfl, ?_, fun r' hr' => ?_, s.cfg.set r v, rfl⟩
    · rw [readReg_setConfig s v r r hr, if_pos rfl]
    · rw [readReg_setConfig s v r' r hr, if_neg hr']
  · rw [writeConfig_busy hs]; rfl
  · revert r; decide

/-! ### Result pairs (R46) -/

/-- Settles O51: `trunc_64` loses nothing of an integer in the signed 64-bit range. -/
theorem resultPairReadsBackTheInteger : Obligations.ResultPairReadsBackTheInteger := by
  unfold Obligations.ResultPairReadsBackTheInteger
  intro r hlow hhigh
  rw [Pair64.toInt_ofInt]
  exact Int.bmod_eq_of_le (by omega) (by omega)

end Sys2Proof.Machine
end

section
/-! SUPPORT. What changes SEQ and the result registers, and what a command in flight keeps (spec/10_state.md R32, R44,
R48, R49, spec/20_memory.md R87, spec/40_sequencer.md R149). -/

namespace Sys2Proof.Machine

open Sys2Proof.Safety

/-! ### SEQ -/

/-- An issue that makes the block busy is an acceptance (R142). -/
theorem issue_seq_busy {i : Instr} {s : State} (hs : s.seq = .idle) (h : (issue i s).seq = .busy) :
    (issue i s).lc.cmd = i ∧ checkIssue i s = none := by
  rcases issue_cases i s with ⟨e, -, hi⟩ | ⟨hc, hi⟩
  · rw [hi] at h; simp [hs] at h
  · rw [hi]; exact ⟨rfl, hc⟩

theorem MoveEffect.seq_rises {s t : State} {m : Option Event} (he : MoveEffect s m t) (hs : s.seq = .idle)
    (ht : t.seq = .busy) :
    ∃ a v i, m = some (hostWrite a 0xF#4 v) ∧ a.toNat = Reg.offset .cmd ∧ decode v = .ok i ∧ t.lc.cmd = i ∧
      checkIssue i s = none := by
  cases he with
  | issue a v i ha _ hd => exact ⟨a, v, i, rfl, ha, hd, issue_seq_busy (s := s.respond .writeOk) hs ht⟩
  | complete | powerOn | softReset => simp at ht
  | status => simp [hs] at ht
  | rest | answer | undecodable | ctrl | config | ram => exact absurd (hs.symm.trans ht) (by decide)

theorem MoveEffect.seq_falls {s t : State} {m : Option Event} (he : MoveEffect s m t) (hs : s.seq = .busy)
    (ht : t.seq = .idle) :
    ((m = none ∨ m = some .sequencer) ∧ t.status.done = true) ∨
      ∃ e, m = some e ∧ isReset e = true ∧ t.status = Status.reset := by
  cases he with
  | complete _ hm => exact .inl ⟨hm, rfl⟩
  | powerOn => exact .inr ⟨_, rfl, rfl, rfl⟩
  | softReset tr h => exact .inr ⟨_, rfl, h, rfl⟩
  | status => simp [hs] at ht
  | answer => exact absurd (hs.symm.trans ht) (by decide)
  | rest _ _ hi | undecodable _ _ _ _ hi | issue _ _ _ _ hi | ctrl _ _ _ _ hi | config _ _ _ _ _ _ hi
    | ram _ _ _ _ _ hi => exact absurd (hs.symm.trans hi) (by decide)

/-- The next move is the sequencer's: none is listed, or its own. -/
theorem sequencer_moves {evs : List Event} (h : evs.head? = none ∨ evs.head? = some .sequencer) :
    evs = [] ∨ ∃ rest, evs = .sequencer :: rest :=
  h.imp List.head?_eq_none_iff.mp List.head?_eq_some_iff.mp

/-- Settles O34: of all effects of a move, an acceptance alone makes SEQ rise, a completion or a reset alone makes it
fall. -/
theorem seqChangesOnlyByAcceptanceCompletionAndReset :
    Obligations.SeqChangesOnlyByAcceptanceCompletionAndReset := by
  unfold Obligations.SeqChangesOnlyByAcceptanceCompletionAndReset
  refine ⟨fun s => ?_, rfl, fun s t h => ⟨fun hs ht => ?_, fun hs ht => ?_⟩⟩
  · rw [State.readReg, statusWord_getLsbD_busy, busy_eq_true]
  · obtain ⟨a, v, i, hm, hi⟩ := (step_effect h).seq_rises hs ht
    obtain ⟨rest, he⟩ := List.head?_eq_some_iff.mp hm
    exact ⟨a, v, i, rest, he, hi⟩
  · rcases (step_effect h).seq_falls hs ht with ⟨hm, hd⟩ | ⟨e, hm, hi⟩
    · exact .inl ⟨sequencer_moves hm, hd⟩
    · obtain ⟨rest, he⟩ := List.head?_eq_some_iff.mp hm
      exact .inr ⟨e, rest, he, hi⟩

/-! ### The results -/

/-- A move keeps every result, or completes the command in flight, or resets the block (R48). -/
theorem MoveEffect.results_cases {s t : State} {m : Option Event} (he : MoveEffect s m t) :
    (t.res = s.res ∧ t.status.bit = s.status.bit ∧ t.status.hsMatch = s.status.hsMatch) ∨
    (s.seq = .busy ∧ (m = none ∨ m = some .sequencer) ∧ t = (commandEffect s.lc.cmd s).finish) ∨
    ∃ e, m = some e ∧ isReset e = true := by
  cases he with
  | complete _ hm hs => exact .inr (.inl ⟨hs, hm, rfl⟩)
  | powerOn => exact .inr (.inr ⟨_, rfl, rfl⟩)
  | softReset _ h => exact .inr (.inr ⟨_, rfl, h⟩)
  | status => exact .inl (by simp)
  | issue _ _ i =>
    rcases issue_cases i (s.respond .writeOk) with ⟨e, -, h⟩ | ⟨-, h⟩ <;> exact .inl (by rw [h]; exact ⟨rfl, rfl, rfl⟩)
  | rest | answer | undecodable | ctrl | config | ram => exact .inl ⟨rfl, rfl, rfl⟩

/-- Settles O35: a completion writes the results of its own command only, and no move but a completion or a reset writes
any. -/
theorem resultsChangeOnlyAtTheirCompletionOrReset : Obligations.ResultsChangeOnlyAtTheirCompletionOrReset := by
  unfold Obligations.ResultsChangeOnlyAtTheirCompletionOrReset
  intro s t h
  rcases (step_effect h).results_cases with ⟨hres, hbit, hhs⟩ | ⟨hs, hm, rfl⟩ | ⟨e, hm, hr⟩
  · simp [hres, hbit, hhs]
  · have hev := sequencer_moves hm
    cases hc : s.lc.cmd with
    | nop => exact ⟨fun hne => absurd rfl hne, fun hne => absurd rfl hne, fun hne => absurd rfl hne⟩
    | tone fsel => exact ⟨fun _ => .inl ⟨hs, ⟨fsel, rfl⟩, hev⟩, fun hne => absurd rfl hne, fun hne => absurd rfl hne⟩
    | detect => exact ⟨fun hne => absurd rfl hne, fun _ => .inl ⟨hs, rfl, hev⟩, fun hne => absurd rfl hne⟩
    | analyze => exact ⟨fun hne => absurd rfl hne, fun hne => absurd rfl hne, fun _ => .inl ⟨hs, rfl, hev⟩⟩
  · obtain ⟨rest, he⟩ := List.head?_eq_some_iff.mp hm
    have hreset : ∃ e rest, s.events = e :: rest ∧ isReset e = true := ⟨e, rest, he, hr⟩
    exact ⟨fun _ => .inr hreset, fun _ => .inr hreset, fun _ => .inr hreset⟩

/-! ### A command in flight -/

/-- Settles O37: such a transfer changes STATUS and the bus response only (`performTransfer_busy`). -/
theorem hostCannotDisturbACommandInFlight : Obligations.HostCannotDisturbACommandInFlight := by
  unfold Obligations.HostCannotDisturbACommandInFlight
  intro s tr hs htr
  obtain ⟨st, r, hstep, hbit, hhs⟩ := performTransfer_busy hs htr
  exact ⟨_, hstep, hs, rfl, rfl, rfl, rfl, rfl, rfl, rfl, hbit, hhs, rfl, rfl⟩

end Sys2Proof.Machine
end

section
/-! SUPPORT. The hidden registers (spec/10_state.md R49, R50, spec/70_reset_and_hazards.md R312): whatever they hold,
each operation of a step looks the same through `observe`. -/

namespace Sys2Proof.Machine

open Sys2Proof.Safety

/-- The machine with other contents of LC and of the datapath registers. -/
def State.withHidden (s : State) (l : LatchedCommand) (d : Datapath) : State := { s with lc := l, datapath := d }

/-- States that look the same differ in the hidden registers at most, and in LC only while idle. -/
theorem eq_withHidden_of_observe_eq {s t : State} (h : observe s = observe t) :
    ∃ l d, t = s.withHidden l d ∧ (s.seq = .busy → l = s.lc) := by
  refine ⟨t.lc, t.datapath, ?_, fun hs => ?_⟩
  · cases s; cases t; simp_all [observe, State.withHidden]
  · have hlc : (observe s).lc = (observe t).lc := congrArg State.lc h
    have hseq : (observe s).seq = (observe t).seq := congrArg State.seq h
    have ht : t.seq = .busy := hseq.symm.trans hs
    simpa [observe, hs, ht] using hlc.symm

section

variable {s : State} {l : LatchedCommand} (d : Datapath)

theorem observe_withHidden (hl : s.seq = .busy → l = s.lc) : observe (s.withHidden l d) = observe s := by
  cases hs : s.seq with
  | idle => simp [observe, State.withHidden, hs]
  | busy => simp [observe, State.withHidden, hs, hl hs]

/-! ### The sequencer's turn -/

/-- A completion computes a command whole, from no datapath register (R50). -/
theorem finish_commandEffect_withHidden (i : Instr) :
    (commandEffect i (s.withHidden s.lc d)).finish = (commandEffect i s).finish := by
  cases i <;> rfl

theorem exec_busy_withHidden (i : Instr) (hs : s.seq = .busy) : exec i (s.withHidden s.lc d) = exec i s := by
  cases hc : checkLatched i s with
  | none => rw [exec_busy hs hc, exec_busy (s := s.withHidden s.lc d) hs hc, finish_commandEffect_withHidden]
  | some e => rw [exec_busy_of_refused hs hc, exec_busy_of_refused (s := s.withHidden s.lc d) hs hc]

/-- LC is read only while a command is in flight, the datapath registers never. -/
theorem observeOutcome_sequencerTurn_withHidden (hl : s.seq = .busy → l = s.lc) :
    observeOutcome (sequencerTurn (s.withHidden l d)) = observeOutcome (sequencerTurn s) := by
  cases hs : s.seq with
  | idle =>
    rw [sequencerTurn_idle hs, sequencerTurn_idle (s := s.withHidden l d) hs]
    exact congrArg Host.Outcome.next (observe_withHidden d hl)
  | busy =>
    rw [hl hs, sequencerTurn_busy hs, sequencerTurn_busy (s := s.withHidden s.lc d) hs]
    exact congrArg observeOutcome (exec_busy_withHidden d s.lc.cmd hs)

/-! ### Host reads -/

/-- An answer shows nothing of the hidden registers. -/
theorem observe_respond_withHidden (hl : s.seq = .busy → l = s.lc) (r : Response) :
    observe ((s.withHidden l d).respond r) = observe (s.respond r) :=
  observe_withHidden (s := s.respond r) d hl

theorem busy_withHidden : (s.withHidden l d).busy = s.busy := rfl

theorem readReg_withHidden (r : Reg) : (s.withHidden l d).readReg r = s.readReg r := by cases r <;> rfl

theorem observe_busRead_withHidden (hl : s.seq = .busy → l = s.lc) (a : Nat) :
    observe (busRead a (s.withHidden l d)) = observe (busRead a s) := by
  rcases target_cases s.params a with ⟨ht, -⟩ | ⟨r, ht, -⟩ | ⟨j, ht, -⟩
  · rw [busRead_unmapped ht, busRead_unmapped (s := s.withHidden l d) ht]
    exact observe_respond_withHidden d hl _
  · rw [busRead_reg ht, busRead_reg (s := s.withHidden l d) ht, readReg_withHidden]
    exact observe_respond_withHidden d hl _
  · have hword : (s.withHidden l d).readRamWord j = s.readRamWord j := rfl
    rw [busRead_ramWord ht, busRead_ramWord (s := s.withHidden l d) ht, hword, busy_withHidden]
    split <;> exact observe_respond_withHidden d hl _

/-! ### Register writes -/

/-- An acceptance overwrites LC, so the value it had before does not show (R142). -/
theorem observe_issue_withHidden (i : Instr) (hs : s.seq = .idle) :
    observe (issue i (s.withHidden l d)) = observe (issue i s) := by
  have hc : checkIssue i (s.withHidden l d) = checkIssue i s := rfl
  unfold issue
  rw [hc]
  cases checkIssue i s with
  | none => exact observe_withHidden (s := s.clearOutcome.accept i) d fun _ => rfl
  | some e => exact observe_withHidden (s := s.clearOutcome.raise e) d (by simp [hs])

theorem observeOutcome_writeCmd_withHidden (hl : s.seq = .busy → l = s.lc) (w : Word) :
    observeOutcome (writeCmd w (s.withHidden l d)) = observeOutcome (writeCmd w s) := by
  cases hs : s.seq with
  | busy =>
    rw [writeCmd_busy hs, writeCmd_busy (s := s.withHidden l d) hs]
    exact congrArg Host.Outcome.next (observe_respond_withHidden d hl _)
  | idle =>
    cases hd : decode w with
    | error e =>
      rw [writeCmd_error hs hd, writeCmd_error (s := s.withHidden l d) hs hd]
      exact congrArg Host.Outcome.next
        (observe_withHidden (s := (s.respond .writeOk).clearOutcome.raise e) d hl)
    | ok i =>
      rw [writeCmd_ok hs hd, writeCmd_ok (s := s.withHidden l d) hs hd]
      exact congrArg Host.Outcome.next (observe_issue_withHidden (s := s.respond .writeOk) d i hs)

/-- A soft reset reads LC only while a command is in flight, and overwrites both hidden registers (R311). -/
theorem softReset_withHidden (hl : s.seq = .busy → l = s.lc) : (s.withHidden l d).softReset = s.softReset := by
  have hram : (s.withHidden l d).abortRam.ram = s.abortRam.ram := by
    cases hs : s.seq with
    | idle => rw [s.abortRam_of_idle hs, (s.withHidden l d).abortRam_of_idle hs]; rfl
    | busy =>
      rw [hl hs]
      simp only [State.abortRam, State.withHidden, hs]
      cases s.lc.cmd <;> rfl
  unfold State.softReset
  rw [hram]
  rfl

theorem observe_writeCtrl_withHidden (hl : s.seq = .busy → l = s.lc) (v : Word) :
    observe (writeCtrl v (s.withHidden l d)) = observe (writeCtrl v s) := by
  unfold writeCtrl
  rw [softReset_withHidden d hl, busy_withHidden]
  split
  · rfl
  · split
    · exact observe_respond_withHidden d hl _
    · exact observe_withHidden (s := { s with ctrl := ctrlOfWord v, response := .writeOk }) d hl

theorem observe_writeConfig_withHidden (hl : s.seq = .busy → l = s.lc) (r : Reg) (v : Word) :
    observe (writeConfig r v (s.withHidden l d)) = observe (writeConfig r v s) := by
  unfold writeConfig
  rw [busy_withHidden]
  split
  · exact observe_respond_withHidden d hl _
  · exact observe_withHidden (s := { s with cfg := s.cfg.set r v, response := .writeOk }) d hl

theorem writeStatus_withHidden (v : Word) : (s.withHidden l d).writeStatus v = (s.writeStatus v).withHidden l d := by
  unfold State.writeStatus State.ackDone State.ackError
  split <;> split <;> rfl

theorem observeOutcome_writeReg_withHidden (hl : s.seq = .busy → l = s.lc) (r : Reg) (v : Word) :
    observeOutcome (writeReg r v (s.withHidden l d)) = observeOutcome (writeReg r v s) := by
  rcases writeReg_cases r v s with ⟨hr, h⟩ | ⟨rfl, h⟩ | ⟨rfl, h⟩ | ⟨rfl, h⟩ | ⟨hr, hr', h⟩ <;> rw [h]
  · rw [writeReg_of_ro hr]
    exact congrArg Host.Outcome.next (observe_respond_withHidden d hl _)
  · exact observeOutcome_writeCmd_withHidden d hl v
  · rw [writeReg_status, writeStatus_withHidden]
    exact congrArg Host.Outcome.next
      (observe_respond_withHidden (s := s.writeStatus v) d (by simpa using hl) _)
  · exact congrArg Host.Outcome.next (observe_writeCtrl_withHidden d hl v)
  · rw [writeReg_of_rw hr hr']
    exact congrArg Host.Outcome.next (observe_writeConfig_withHidden d hl r v)

/-! ### A step -/

theorem observeOutcome_busWrite_withHidden (hl : s.seq = .busy → l = s.lc) (a : Nat) (strb : BitVec 4) (v : Word) :
    observeOutcome (busWrite a strb v (s.withHidden l d)) = observeOutcome (busWrite a strb v s) := by
  by_cases hb : strb = 0xF#4
  swap
  · rw [busWrite_partial hb, busWrite_partial hb]
    exact congrArg Host.Outcome.next (observe_respond_withHidden d hl _)
  subst hb
  rcases target_cases s.params a with ⟨ht, -⟩ | ⟨r, ht, -⟩ | ⟨j, ht, -⟩
  · rw [busWrite_unmapped ht, busWrite_unmapped (s := s.withHidden l d) ht]
    exact congrArg Host.Outcome.next (observe_respond_withHidden d hl _)
  · rw [busWrite_reg ht, busWrite_reg (s := s.withHidden l d) ht]
    exact observeOutcome_writeReg_withHidden d hl r v
  · rw [busWrite_ramWord ht, busWrite_ramWord (s := s.withHidden l d) ht, busy_withHidden]
    split
    · exact congrArg Host.Outcome.next (observe_respond_withHidden d hl _)
    · exact congrArg Host.Outcome.next (observe_respond_withHidden (s := s.storeRamWord j v) d hl _)

theorem observeOutcome_performEvent_withHidden (hl : s.seq = .busy → l = s.lc) (e : Event) :
    observeOutcome (performEvent e (s.withHidden l d)) = observeOutcome (performEvent e s) := by
  cases e with
  | transfer tr =>
    simp only [performEvent, performTransfer]
    split
    · exact observeOutcome_busWrite_withHidden d hl _ _ _
    · exact congrArg Host.Outcome.next (observe_busRead_withHidden d hl _)
  | sequencer => exact observeOutcome_sequencerTurn_withHidden d hl
  | powerOn => rfl

end

/-- Settles O40: two states that look the same differ in hidden registers only (`eq_withHidden_of_observe_eq`), and the
move that a step makes looks the same whatever those hold. -/
theorem hiddenRegistersAreNeverObservable : Obligations.HiddenRegistersAreNeverObservable := by
  unfold Obligations.HiddenRegistersAreNeverObservable
  intro s t h
  obtain ⟨l, d, rfl, hl⟩ := eq_withHidden_of_observe_eq h
  rcases step_cases s with ⟨he, hs⟩ | ⟨e, rest, he, hs⟩ <;> rw [hs]
  · rw [step_of_events_nil (s := s.withHidden l d) he]
    exact (observeOutcome_sequencerTurn_withHidden d hl).symm
  · rw [step_of_events_cons (s := s.withHidden l d) he]
    exact (observeOutcome_performEvent_withHidden (s := { s with events := rest }) d hl e).symm

end Sys2Proof.Machine
end

section
/-! SUPPORT. Host access to the registers and the sample RAM, and what writes the RAM (spec/20_memory.md R80 to R91). -/

namespace Sys2Proof.Machine

open Sys2Proof.Safety

/-! ### The address map (R33, R82, R83, R86) -/

theorem offset_lt_ramBase (r : Reg) : r.offset < ramBase := (offset_lt r).trans (by decide)

theorem ramBase_le_ramEnd (p : Config.Params) : ramBase ≤ ramEnd p := Nat.le_add_right _ _

/-- What names nothing: a misaligned offset, and an aligned one outside both the registers and the RAM window. -/
theorem target_eq_unmapped {p : Config.Params} {a : Nat} :
    target p a = .unmapped ↔ a % 4 ≠ 0 ∨ (a < ramBase ∧ ∀ r : Reg, r.offset ≠ a) ∨ ramEnd p ≤ a := by
  rcases target_cases p a with ⟨ht, h⟩ | ⟨r, ht, rfl⟩ | ⟨j, ht, rfl, hj⟩
  · exact iff_of_true ht h
  · have := offset_lt_ramBase r
    have := ramBase_le_ramEnd p
    refine iff_of_false (by simp [ht]) ?_
    rintro (h | ⟨-, h⟩ | h)
    · exact h (offset_aligned r)
    · exact h r rfl
    · omega
  · have := ramDepth_bounds p
    refine iff_of_false (by simp [ht]) ?_
    simp only [ramEnd, ramBase]
    omega

/-- No register lies at or above the RAM window. -/
theorem target_of_ramBase_le {p : Config.Params} {a : Nat} (h : ramBase ≤ a) :
    target p a = .unmapped ∨ ∃ j, target p a = .ramWord j := by
  rcases target_cases p a with ⟨ht, -⟩ | ⟨r, -, rfl⟩ | ⟨j, ht, -⟩
  · exact .inl ht
  · exact absurd (offset_lt_ramBase r) (by omega)
  · exact .inr ⟨j, ht⟩

/-- The offset of a word of the RAM window fits the port `paddr`. -/
theorem ramWordOffset_toNat {p : Config.Params} {j : Nat} (h : 2 * j < p.ramDepth) :
    (BitVec.ofNat 20 (ramBase + 4 * j)).toNat = ramBase + 4 * j := by
  have := ramDepth_bounds p
  rw [BitVec.toNat_ofNat, Nat.mod_eq_of_lt (by simp only [ramBase]; omega)]

/-! ### Host transfers -/

/-- What a read of the bus answers is what a step does that makes the read (R80). -/
theorem step_hostRead_of_answer {s : State} {a : Offset} {r : Response} (h : busRead a.toNat s = s.respond r)
    (strb : BitVec 4) (v : Word) : step (present s (hostRead a strb v)) = .next { s with response := r } :=
  congrArg Host.Outcome.next h

/-- A read is refused or answers a value. -/
theorem busRead_cases (a : Nat) (s : State) :
    busRead a s = s.respond .readError ∨ ∃ w, busRead a s = s.respond (.readOk w) := by
  rcases target_cases s.params a with ⟨ht, -⟩ | ⟨r, ht, -⟩ | ⟨j, ht, -⟩
  · exact .inl (busRead_unmapped ht)
  · exact .inr ⟨_, busRead_reg ht⟩
  · rw [busRead_ramWord ht]
    split
    · exact .inl rfl
    · exact .inr ⟨_, rfl⟩

theorem busRead_ramWord_idle {a j : Nat} {s : State} (ht : target s.params a = .ramWord j) (hs : s.seq = .idle) :
    busRead a s = s.respond (.readOk (s.readRamWord j)) := by
  rw [busRead_ramWord ht, busy_eq_false.mpr hs, if_neg Bool.false_ne_true]

/-- The RAM window is closed to reads while a command is in flight (R87). -/
theorem busRead_ramWindow_busy {a : Nat} {s : State} (ha : ramBase ≤ a) (hs : s.seq = .busy) :
    busRead a s = s.respond .readError := by
  rcases target_of_ramBase_le ha with ht | ⟨j, ht⟩
  · exact busRead_unmapped ht
  · rw [busRead_ramWord ht, if_pos (busy_eq_true.mpr hs)]

theorem busWrite_ramWord_idle {a j : Nat} {s : State} (ht : target s.params a = .ramWord j) (hs : s.seq = .idle)
    (v : Word) : busWrite a 0xF#4 v s = .next ((s.storeRamWord j v).respond .writeOk) := by
  rw [busWrite_ramWord ht, busy_eq_false.mpr hs, if_neg Bool.false_ne_true]

/-- The RAM window is closed to writes while a command is in flight (R87). -/
theorem busWrite_ramWindow_busy {a : Nat} {s : State} (ha : ramBase ≤ a) (hs : s.seq = .busy) (v : Word) :
    busWrite a 0xF#4 v s = .next (s.respond .writeError) := by
  rcases target_of_ramBase_le ha with ht | ⟨j, ht⟩
  · exact busWrite_unmapped ht v
  · rw [busWrite_ramWord ht, if_pos (busy_eq_true.mpr hs)]

/-- CMD and the argument and configuration registers are closed to writes while a command is in flight (R87, R140). -/
theorem writeReg_busy {r : Reg} (hr : r ∈ .cmd :: Reg.configs) {s : State} (hs : s.seq = .busy) (v : Word) :
    writeReg r v s = .next (s.respond .writeError) := by
  rcases List.mem_cons.mp hr with rfl | hr
  · exact writeCmd_busy hs v
  · obtain ⟨hrw, hne⟩ := access_of_mem_configs r hr
    rw [writeReg_of_rw hrw hne, writeConfig_busy hs]

/-- A write refused with all byte strobes set is refused with any (R83). -/
theorem step_hostWrite_of_refused {s : State} {a : Offset} {v : Word}
    (h : busWrite a.toNat 0xF#4 v s = .next (s.respond .writeError)) (strb : BitVec 4) :
    step (present s (hostWrite a strb v)) = .next { s with response := .writeError } := by
  by_cases hb : strb = 0xF#4
  · rw [hb]; exact h
  · exact busWrite_partial hb a.toNat v s

/-- Settles O16: what the offset names decides the answer. -/
theorem hostReadAnswersAndChangesNothing : Obligations.HostReadAnswersAndChangesNothing := by
  unfold Obligations.HostReadAnswersAndChangesNothing
  intro s a strb v
  refine ⟨fun h => ?_, fun h hr => ?_, fun h => ?_, fun h hs => ?_, fun r hr => ?_, fun j hj ha hs => ?_⟩ <;>
    apply step_hostRead_of_answer
  · exact busRead_unmapped (target_eq_unmapped.mpr (.inl h))
  · exact busRead_unmapped (target_eq_unmapped.mpr (.inr (.inl ⟨h, hr⟩)))
  · exact busRead_unmapped (target_eq_unmapped.mpr (.inr (.inr h)))
  · exact busRead_ramWindow_busy h hs
  · exact busRead_reg (hr ▸ target_reg s.params r)
  · exact busRead_ramWord_idle (ha ▸ target_ramWord hj) hs

/-- Settles O17: a partial write is refused whatever it names, and each other clause names what a full-word write is
refused at. -/
theorem refusedWriteChangesNothing : Obligations.RefusedWriteChangesNothing := by
  unfold Obligations.RefusedWriteChangesNothing
  intro s a strb v
  refine ⟨fun h => busWrite_partial h a.toNat v s, fun h => ?_, fun h hr => ?_, fun h => ?_, fun hs h => ?_,
    fun hs r hr ha => ?_, fun hs ha hv => ?_⟩ <;> apply step_hostWrite_of_refused
  · exact busWrite_unmapped (target_eq_unmapped.mpr (.inl h)) v
  · exact busWrite_unmapped (target_eq_unmapped.mpr (.inr (.inl ⟨h, hr⟩))) v
  · exact busWrite_unmapped (target_eq_unmapped.mpr (.inr (.inr h))) v
  · exact busWrite_ramWindow_busy h hs v
  · rw [busWrite_reg (ha ▸ target_reg s.params r), writeReg_busy hr hs]
  · rw [busWrite_reg (ha ▸ target_reg s.params .ctrl), writeReg_ctrl, writeCtrl_busy hv hs]

/-! ### Error responses (R85) -/

theorem writeCmd_eq_of_slverr {w : Word} {s t : State} (h : writeCmd w s = .next t) (he : t.response.slverr = true) :
    t = s.respond .writeError := by
  rcases writeCmd_cases w s with ⟨-, hw⟩ | ⟨e, -, -, hw⟩ | ⟨i, -, -, hw⟩ <;> cases h.symm.trans hw
  · rfl
  · simp [Response.slverr] at he
  · simp [Response.slverr] at he

theorem writeCtrl_eq_of_slverr {v : Word} {s : State} (he : (writeCtrl v s).response.slverr = true) :
    writeCtrl v s = s.respond .writeError := by
  rcases writeCtrl_cases v s with ⟨-, hw⟩ | ⟨-, -, hw⟩ | ⟨-, -, hw⟩ <;> rw [hw] at he ⊢ <;>
    simp [Response.slverr] at he

theorem writeConfig_eq_of_slverr {r : Reg} {v : Word} {s : State} (he : (writeConfig r v s).response.slverr = true) :
    writeConfig r v s = s.respond .writeError := by
  rcases writeConfig_cases r v s with ⟨-, hw⟩ | ⟨-, hw⟩ <;> rw [hw] at he ⊢
  simp [Response.slverr] at he

theorem busWrite_eq_of_slverr {a : Nat} {strb : BitVec 4} {v : Word} {s t : State} (h : busWrite a strb v s = .next t)
    (he : t.response.slverr = true) : t = s.respond .writeError := by
  rcases busWrite_cases a strb v s with hw | ⟨-, hw⟩ | ⟨-, -, hw⟩ | ⟨-, -, hw⟩ | ⟨-, -, hw⟩ | ⟨r, -, -, -, -, hw⟩ |
    ⟨j, -, -, -, -, hw⟩ <;> rw [hw] at h
  case inr.inr.inl => exact writeCmd_eq_of_slverr h he
  all_goals cases h
  · rfl
  · simp [Response.slverr] at he
  · simp [Response.slverr] at he
  · exact writeCtrl_eq_of_slverr he
  · exact writeConfig_eq_of_slverr he
  · simp [Response.slverr] at he

theorem busRead_eq_of_slverr {a : Nat} {s : State} (he : (busRead a s).response.slverr = true) :
    busRead a s = s.respond .readError := by
  rcases busRead_cases a s with h | ⟨w, h⟩
  · exact h
  · rw [h] at he; simp [Response.slverr] at he

/-- Settles O18: a read or a write whose answer is an error is a refused one, which only answers. -/
theorem errorResponseLeavesTheBlockUnchanged : Obligations.ErrorResponseLeavesTheBlockUnchanged := by
  unfold Obligations.ErrorResponseLeavesTheBlockUnchanged
  rintro s t ⟨pwrite, a, v, strb⟩ h he
  cases pwrite with
  | false =>
    cases h
    rw [busRead_eq_of_slverr he]
    exact ⟨rfl, fun _ => rfl⟩
  | true =>
    rw [busWrite_eq_of_slverr h he]
    exact ⟨rfl, fun hw => nomatch hw⟩

/-! ### The RAM window (R82) -/

/-- Word `j` of the RAM window begins with the low byte of sample `2 * j`. -/
theorem sampleOffset_two_mul (j : Nat) : sampleOffset (2 * j) = ramBase + 4 * j := by
  simp only [sampleOffset]; omega

theorem readRamWord_low (s : State) (j : Nat) : (s.readRamWord j).extractLsb' 0 16 = s.readSample (2 * j) :=
  BitVec.extractLsb'_append_eq_right

theorem readRamWord_high (s : State) (j : Nat) : (s.readRamWord j).extractLsb' 16 16 = s.readSample (2 * j + 1) :=
  BitVec.extractLsb'_append_eq_left

theorem readSample_storeRamWord_low (s : State) (j : Nat) (v : Word) :
    (s.storeRamWord j v).readSample (2 * j) = v.extractLsb' 0 16 := by
  rw [State.storeRamWord, State.readSample_storeSamples]; simp

theorem readSample_storeRamWord_high (s : State) (j : Nat) (v : Word) :
    (s.storeRamWord j v).readSample (2 * j + 1) = v.extractLsb' 16 16 := by
  rw [State.storeRamWord, State.readSample_storeSamples]; simp

/-- The word read back is the word written. -/
theorem readRamWord_storeRamWord (s : State) (j : Nat) (v : Word) : (s.storeRamWord j v).readRamWord j = v := by
  rw [State.readRamWord, readSample_storeRamWord_low, readSample_storeRamWord_high]
  exact BitVec.extractLsb'_append_extractLsb'

theorem readByte_storeRamWord_outside (s : State) {j a : Nat} (v : Word)
    (h : a < ramBase + 4 * j ∨ ramBase + 4 * j + 4 ≤ a) : (s.storeRamWord j v).readByte a = s.readByte a := by
  apply State.readByte_storeSamples_outside
  simp only [sampleOffset, List.length_cons, List.length_nil]
  omega

/-- Settles O19: both accesses name word `j`, whose store and reads the lemmas above describe. -/
theorem ramWindowWriteStoresBothSamples : Obligations.RamWindowWriteStoresBothSamples := by
  unfold Obligations.RamWindowWriteStoresBothSamples
  intro s j v hs hj
  have ht : target s.params (BitVec.ofNat 20 (ramBase + 4 * j)).toNat = .ramWord j := by
    rw [ramWordOffset_toNat hj, target_ramWord hj]
  let t := (s.storeRamWord j v).respond .writeOk
  have hback : busRead (BitVec.ofNat 20 (ramBase + 4 * j)).toNat t = t.respond (.readOk v) := by
    rw [busRead_ramWord_idle (s := t) ht hs]
    exact congrArg (fun w => t.respond (.readOk w)) (readRamWord_storeRamWord s j v)
  exact ⟨⟨s.readRamWord j, step_hostRead_of_answer (busRead_ramWord_idle ht hs) _ _, readRamWord_low s j,
      readRamWord_high s j⟩,
    t, busWrite_ramWord_idle ht hs v, readSample_storeRamWord_low s j v, readSample_storeRamWord_high s j v,
    fun _ ha => readByte_storeRamWord_outside s v ha, ⟨_, rfl⟩, step_hostRead_of_answer hback _ _⟩

/-! ### What changes a byte of the sample RAM (R89, R90) -/

/-- A TONE is in flight whose buffer holds the byte at offset `b`. -/
def InToneBuffer (s : State) (b : Nat) : Prop :=
  s.seq = .busy ∧ (∃ f, s.lc.cmd = .tone f) ∧
    sampleOffset s.lc.addr.toNat ≤ b ∧ b < sampleOffset (s.lc.addr.toNat + s.lc.len.toNat)

/-- Of the commands only a TONE writes the RAM, and only its buffer (R89). -/
theorem inToneBuffer_of_commandEffect {s : State} {b : Nat} (hs : s.seq = .busy)
    (h : (commandEffect s.lc.cmd s).readByte b ≠ s.readByte b) : InToneBuffer s b := by
  cases hc : s.lc.cmd with
  | nop => rw [hc] at h; exact absurd rfl h
  | tone fsel =>
    refine ⟨hs, ⟨fsel, hc⟩, ?_⟩
    by_contra hout
    rw [hc] at h
    refine h (State.readByte_storeSamples_outside s ?_)
    rw [length_toneSamples]
    omega
  | detect => rw [hc] at h; exact absurd (State.readByte_congr (detectEffect_ram s) (detectEffect_ramDraw s) b) h
  | analyze => rw [hc] at h; exact absurd (State.readByte_congr (analyzeEffect_ram s) (analyzeEffect_ramDraw s) b) h

/-- A soft reset loses the buffer of a TONE in flight and nothing else of the RAM (R311). -/
theorem inToneBuffer_of_abortRam {s : State} {b : Nat} (h : s.abortRam.readByte b ≠ s.readByte b) :
    InToneBuffer s b := by
  unfold State.abortRam at h
  split at h
  · next fsel hs hc =>
    refine ⟨hs, ⟨fsel, hc⟩, ?_⟩
    by_contra hout
    exact h (State.readByte_loseSamples_outside s (by omega))
  · exact absurd rfl h

theorem State.abortRam_ramDraw (s : State) : s.abortRam.ramDraw = s.ramDraw := by
  unfold State.abortRam; split <;> rfl

/-- The four writers of a byte of the sample RAM, among all effects of a move. -/
theorem MoveEffect.ramByte_writers {s t : State} {m : Option Event} {b : Nat} (he : MoveEffect s m t)
    (hb : t.readByte b ≠ s.readByte b) :
    (∃ a v, m = some (hostWrite a 0xF#4 v) ∧ s.seq = .idle ∧ a.toNat ≤ b ∧ b < a.toNat + 4) ∨
    (InToneBuffer s b ∧ (m = none ∨ m = some .sequencer)) ∨
    (InToneBuffer s b ∧ ∃ tr, m = some (.transfer tr) ∧ isSoftReset tr = true) ∨
    m = some .powerOn := by
  cases he with
  | ram a v j ha _ hs =>
    refine .inl ⟨a, v, rfl, hs, ?_⟩
    by_contra hout
    exact hb (readByte_storeRamWord_outside s v (by omega))
  | complete _ hm hs => exact .inr (.inl ⟨inToneBuffer_of_commandEffect hs hb, hm⟩)
  | softReset tr htr =>
    have hlost : s.abortRam.readByte b = (s.softReset.respond .writeOk).readByte b :=
      State.readByte_congr (by simp) (by simp [State.abortRam_ramDraw]) b
    exact .inr (.inr (.inl ⟨inToneBuffer_of_abortRam (hlost ▸ hb), tr, rfl, htr⟩))
  | powerOn => exact .inr (.inr (.inr rfl))
  | issue | status => exact absurd (State.readByte_congr (by simp) (by simp) b) hb
  | rest | answer | undecodable | ctrl | config => exact absurd rfl hb

/-- Settles O36: a step is an effect of the next move, and four of those effects write the RAM. -/
theorem ramBytesChangeOnlyByTheirWriters : Obligations.RamBytesChangeOnlyByTheirWriters := by
  unfold Obligations.RamBytesChangeOnlyByTheirWriters
  intro s t b h hb
  rcases (step_effect h).ramByte_writers hb with ⟨a, v, hm, hw⟩ | ⟨hin, hm⟩ | ⟨hin, tr, hm, htr⟩ | hm
  · obtain ⟨rest, he⟩ := List.head?_eq_some_iff.mp hm
    exact .inl ⟨a, v, rest, he, hw⟩
  · exact .inr (.inl ⟨hin, sequencer_moves hm⟩)
  · obtain ⟨rest, he⟩ := List.head?_eq_some_iff.mp hm
    exact .inr (.inr (.inl ⟨hin, tr, rest, he, htr⟩))
  · exact .inr (.inr (.inr (List.head?_eq_some_iff.mp hm)))

/-! ### The block's window (R91) -/

theorem windowOffset_inside {p : Config.Params} {o : Nat} (h : o < 2 ^ 20) :
    windowOffset p (p.base + o) = some (BitVec.ofNat 20 o) := by
  unfold windowOffset
  rw [if_pos (by omega), Nat.add_sub_cancel_left]

theorem windowOffset_outside {p : Config.Params} {a : Nat} (h : a < p.base ∨ p.base + 2 ^ 20 ≤ a) :
    windowOffset p a = none := by
  unfold windowOffset
  rw [if_neg (by omega)]

/-- Settles O26: the window is `BASE .. BASE + 2^20 - 1`, and BASE is a multiple of its size. -/
theorem hostAccessReachesTheBlockByItsWindow : Obligations.HostAccessReachesTheBlockByItsWindow := by
  unfold Obligations.HostAccessReachesTheBlockByItsWindow
  intro s a w v strb
  refine ⟨Nat.mul_mod_right _ _, fun o ho ha => ?_, fun h => ?_⟩
  · refine ⟨BitVec.ofNat 20 o, by rw [BitVec.toNat_ofNat, Nat.mod_eq_of_lt ho], ?_⟩
    rw [State.hostAccess, ha, windowOffset_inside ho]
  · rw [State.hostAccess, windowOffset_outside h]

end Sys2Proof.Machine
end

section
/-! SUPPORT. The decoder on every command word (spec/30_encoding.md R110 to R116): when it answers each command and each
error, in fields and in numbers, and the rows of the match and mask table that a word matches. -/

namespace Sys2Proof

/-! ### The fields of a word -/

/-- Two command words are equal iff their fields are (R110). -/
theorem word_eq_iff_fields {w v : Word} :
    w = v ↔ rsvdField w = rsvdField v ∧ fselField w = fselField v ∧ opField w = opField v := by
  refine ⟨fun h => h ▸ ⟨rfl, rfl, rfl⟩, fun ⟨hr, hf, ho⟩ => ?_⟩
  rw [← word_of_fields w, ← word_of_fields v, hr, hf, ho]

theorem FreqSel.number_eq_field_toNat (f : FreqSel) : f.number = f.field.toNat := by cases f <;> rfl

/-! ### The decoder's answers -/

@[simp] theorem decode_encode (i : Instr) : decode (encode i) = .ok i := by
  cases i with
  | nop => rfl
  | tone f => cases f <;> rfl
  | detect => rfl
  | analyze => rfl

/-- A word decodes to a command iff its fields are the command's and RSVD is 0 (R111, R112, R114). -/
theorem decode_eq_ok_iff_fields {w : Word} {i : Instr} :
    decode w = .ok i ↔ rsvdField w = 0#26 ∧ fselField w = i.fselBits ∧ opField w = i.op := by
  constructor
  · intro h
    rcases decode_cases w with ⟨he, -⟩ | ⟨he, -⟩ | ⟨j, hj, -, hop, hfsel, hrsvd⟩
    · cases he.symm.trans h
    · cases he.symm.trans h
    · cases hj.symm.trans h
      exact ⟨hrsvd, hfsel.symm, hop.symm⟩
  · rintro ⟨hrsvd, hfsel, hop⟩
    have hw : w = encode i := by simp [word_eq_iff_fields, hrsvd, hfsel, hop]
    rw [hw, decode_encode]

/-- The encoder is the inverse of the decoder. -/
theorem decode_eq_ok_iff {w : Word} {i : Instr} : decode w = .ok i ↔ w = encode i := by
  rw [decode_eq_ok_iff_fields, word_eq_iff_fields, rsvdField_encode, fselField_encode, opField_encode]

/-- `decode_eq_ok_iff_fields`, the fields read as numbers. -/
theorem decode_eq_ok_iff_toNat {w : Word} {i : Instr} :
    decode w = .ok i ↔
      w.toNat / 64 = 0 ∧ w.toNat / 16 % 4 = i.fselBits.toNat ∧ w.toNat % 16 = i.op.toNat := by
  rw [decode_eq_ok_iff_fields, ← BitVec.toNat_inj, ← BitVec.toNat_inj, ← BitVec.toNat_inj, rsvdField_toNat,
    fselField_toNat, opField_toNat, BitVec.toNat_ofNat, Nat.zero_mod]

/-- An OP value without a command is the first error (R114). -/
theorem decode_eq_illegalOp {w : Word} (h : 4 ≤ w.toNat % 16) : decode w = .error .illegalOp :=
  if_pos (opField_toNat w ▸ h)

/-- A word whose OP value names a command raises the second error where a reserved bit is set, or FSEL is set for a
command other than TONE (R114). -/
theorem decode_eq_rsvdField {w : Word} (hop : w.toNat % 16 < 4)
    (h : w.toNat / 64 ≠ 0 ∨ w.toNat % 16 ≠ 1 ∧ w.toNat / 16 % 4 ≠ 0) : decode w = .error .rsvdField := by
  rcases decode_cases w with ⟨-, hop'⟩ | ⟨he, -⟩ | ⟨i, hi, -⟩
  · rw [opField_toNat] at hop'; omega
  · exact he
  · obtain ⟨hrsvd, hfsel, hop'⟩ := decode_eq_ok_iff_toNat.mp hi
    obtain ⟨hne, hne'⟩ := h.resolve_left (not_not.mpr hrsvd)
    cases i with
    | tone => exact absurd hop' hne
    | nop | detect | analyze => exact absurd hfsel hne'

/-- Decoding raises no other errors than the two of R114. -/
theorem eq_of_decode_eq_error {w : Word} {e : CommandError} (h : decode w = .error e) :
    e = .illegalOp ∨ e = .rsvdField := by
  rcases decode_cases w with ⟨he, -⟩ | ⟨he, -⟩ | ⟨i, hi, -⟩
  · cases he.symm.trans h; exact .inl rfl
  · cases he.symm.trans h; exact .inr rfl
  · cases hi.symm.trans h

theorem decode_eq_tone_ofField {w : Word} (hrsvd : rsvdField w = 0#26) (hop : opField w = 1#4) :
    decode w = .ok (.tone (FreqSel.ofField (fselField w))) :=
  decode_eq_ok_iff_fields.mpr ⟨hrsvd, (FreqSel.field_ofField _).symm, hop⟩

/-- The FSEL field of a word that decodes to TONE is the number of its selector (R112). -/
theorem number_of_decode_eq_tone {w : Word} {f : FreqSel} (h : decode w = .ok (.tone f)) :
    f.number = w.toNat / 16 % 4 := by
  obtain ⟨-, hfsel, -⟩ := decode_eq_ok_iff_toNat.mp h
  exact f.number_eq_field_toNat.trans hfsel.symm

/-! ### Well-formed words and commands -/

theorem Instr.wellFormed_eq_true (i : Instr) : i.wellFormed = true := by
  cases i with
  | tone f => cases f <;> rfl
  | nop | detect | analyze => rfl

theorem wordWellFormed_encode (i : Instr) : wordWellFormed (encode i) = true := by
  cases i with
  | tone f => cases f <;> rfl
  | nop | detect | analyze => rfl

/-- A well-formed word breaks none of the rules of R116. -/
theorem wordWellFormed_fields {w : Word} (h : wordWellFormed w = true) :
    (opField w).toNat < 4 ∧ rsvdField w = 0#26 ∧ (opField w = 1#4 ∨ fselField w = 0#2) := by
  simpa [wordWellFormed, opDefined, rsvdClear, fselAllowed, and_assoc, opField, rsvdField, fselField] using h

/-- A word is well formed iff it is the encoding of a command (R116). -/
theorem wordWellFormed_iff_encode {w : Word} : wordWellFormed w = true ↔ ∃ i, encode i = w := by
  constructor
  · intro h
    obtain ⟨hop, hrsvd, hfsel⟩ := wordWellFormed_fields h
    rcases decode_cases w with ⟨-, hop'⟩ | ⟨-, -, hbad | ⟨hne, hne'⟩⟩ | ⟨i, hi, -⟩
    · exact absurd hop hop'.not_gt
    · exact absurd hrsvd hbad
    · exact absurd hfsel (not_or.mpr ⟨hne, hne'⟩)
    · exact ⟨i, (decode_eq_ok_iff.mp hi).symm⟩
  · rintro ⟨i, rfl⟩
    exact wordWellFormed_encode i

/-- Settles O3: a word is its fields, and the decoder answers a command only where the fields are the command's. -/
theorem decodeEncodeAgreeOnEveryWord : Obligations.DecodeEncodeAgreeOnEveryWord := by
  unfold Obligations.DecodeEncodeAgreeOnEveryWord
  exact ⟨fun w i => decode_eq_ok_iff, fun w => by simp [wordWellFormed_iff_encode, Instr.wellFormed_eq_true]⟩

/-! ### The match and mask table (R115) -/

/-- The mask of the TONE row keeps the fields OP and RSVD and clears FSEL. -/
theorem fields_and_toneMask (w : Word) :
    rsvdField (w &&& 0xFFFFFFCF#32) = rsvdField w ∧ fselField (w &&& 0xFFFFFFCF#32) = 0#2 ∧
      opField (w &&& 0xFFFFFFCF#32) = opField w := by
  unfold rsvdField fselField opField
  rw [BitVec.extractLsb'_and, BitVec.extractLsb'_and, BitVec.extractLsb'_and]
  exact ⟨BitVec.and_allOnes, BitVec.and_zero, BitVec.and_allOnes⟩

/-- A word matches the TONE row iff it decodes to TONE of some selector. -/
theorem exists_decode_eq_tone_iff {w : Word} :
    (∃ f, decode w = .ok (.tone f)) ↔ w &&& 0xFFFFFFCF#32 = 0x00000001#32 := by
  obtain ⟨hrsvd, hfsel, hop⟩ := fields_and_toneMask w
  rw [word_eq_iff_fields, hrsvd, hfsel, hop]
  constructor
  · rintro ⟨f, hf⟩
    obtain ⟨hr, -, ho⟩ := decode_eq_ok_iff_fields.mp hf
    exact ⟨hr, rfl, ho⟩
  · rintro ⟨hr, -, ho⟩
    exact ⟨_, decode_eq_tone_ofField hr ho⟩

/-- A row whose mask is all ones matches the words that are its match. -/
theorem and_fullMask_eq_iff {w v : Word} : w &&& 0xFFFFFFFF#32 = v ↔ w = v := by
  rw [show w &&& 0xFFFFFFFF#32 = w from BitVec.and_allOnes]

theorem rowMatch (i : Instr) : Laws.RowMatch.Statement i := by
  cases i with
  | nop => exact Laws.RowMatch.nop
  | tone f => exact Laws.RowMatch.tone f
  | detect => exact Laws.RowMatch.detect
  | analyze => exact Laws.RowMatch.analyze

/-- A word that matches a row of the table decodes. -/
theorem exists_decode_eq_ok_of_selects {w : Word} {r : OpcodeRow} (hr : r ∈ opcodeRows) (h : r.selects w = true) :
    ∃ i, decode w = .ok i := by
  have hw : w &&& r.maskBits = r.matchBits := eq_of_beq h
  simp only [opcodeRows, List.mem_cons, List.not_mem_nil, or_false] at hr
  rcases hr with rfl | rfl | rfl | rfl
  · exact ⟨.nop, decode_eq_ok_iff.mpr (and_fullMask_eq_iff.mp hw)⟩
  · obtain ⟨f, hf⟩ := exists_decode_eq_tone_iff.mpr hw
    exact ⟨.tone f, hf⟩
  · exact ⟨.detect, decode_eq_ok_iff.mpr (and_fullMask_eq_iff.mp hw)⟩
  · exact ⟨.analyze, decode_eq_ok_iff.mpr (and_fullMask_eq_iff.mp hw)⟩

/-- A word that decodes matches one row. -/
theorem length_rows_of_decode_eq_ok {w : Word} {i : Instr} (h : decode w = .ok i) :
    (opcodeRows.filter fun r => r.selects w).length = 1 := by
  obtain ⟨-, hrows⟩ := rowMatch i
  rw [decode_eq_ok_iff.mp h, ← List.length_map (f := OpcodeRow.mnemonic), hrows, List.length_singleton]

/-- A word is an error iff it matches no row. -/
theorem exists_decode_eq_error_iff {w : Word} :
    (∃ e, decode w = .error e) ↔ ∀ r ∈ opcodeRows, r.selects w = false := by
  constructor
  · rintro ⟨e, he⟩ r hr
    refine Bool.eq_false_iff.mpr fun hsel => ?_
    obtain ⟨i, hi⟩ := exists_decode_eq_ok_of_selects hr hsel
    cases he.symm.trans hi
  · intro hnone
    cases hd : decode w with
    | error e => exact ⟨e, rfl⟩
    | ok i =>
      have hempty : (opcodeRows.filter fun r => r.selects w) = [] :=
        List.filter_eq_nil_iff.mpr fun r hr => by simp [hnone r hr]
      simpa [hempty] using length_rows_of_decode_eq_ok hd

/-- No two rows match one word. -/
theorem length_rows_le_one (w : Word) : (opcodeRows.filter fun r => r.selects w).length ≤ 1 := by
  cases hd : decode w with
  | error e =>
    have hnone := exists_decode_eq_error_iff.mp ⟨e, hd⟩
    rw [List.filter_eq_nil_iff.mpr fun r hr => by simp [hnone r hr]]
    exact Nat.zero_le 1
  | ok i => exact (length_rows_of_decode_eq_ok hd).le

/-- Settles O2: the masks keep OP and RSVD, and FSEL but for TONE, which are the fields the decoder tests. -/
theorem wordsSelectCommandsByMatchAndMask : Obligations.WordsSelectCommandsByMatchAndMask := by
  unfold Obligations.WordsSelectCommandsByMatchAndMask
  intro w
  simp only [and_fullMask_eq_iff]
  exact ⟨decode_eq_ok_iff, exists_decode_eq_tone_iff, decode_eq_ok_iff, decode_eq_ok_iff,
    fun f hf => number_of_decode_eq_tone hf, length_rows_le_one w, exists_decode_eq_error_iff⟩

/-- Settles O4: the words of the commands are their encodings; the others break R114's first or second test. -/
theorem sampleWordsDecodeAsTheSpecSays : Obligations.SampleWordsDecodeAsTheSpecSays := by
  unfold Obligations.SampleWordsDecodeAsTheSpecSays
  exact ⟨decode_encode .nop, decode_encode (.tone .freq0), decode_encode (.tone .freq1), decode_encode (.tone .start),
    decode_encode (.tone .freqT), decode_encode .detect, decode_encode .analyze, decode_eq_illegalOp (by decide),
    decode_eq_rsvdField (by decide) (by decide), decode_eq_rsvdField (by decide) (by decide)⟩

end Sys2Proof

namespace Sys2Proof.Machine

/-! ### A command word written to CMD -/

/-- Settles O8: the write is `writeCmd`, which raises the error of the decoder on the cleared outcome. -/
theorem undecodableWordRaisesItsErrorAndNothingElse : Obligations.UndecodableWordRaisesItsErrorAndNothingElse := by
  unfold Obligations.UndecodableWordRaisesItsErrorAndNothingElse
  intro s w e hs hd
  have hstep : step (Safety.present s (Safety.hostWriteReg .cmd w)) =
      .next ((s.respond .writeOk).clearOutcome.raise e) :=
    (step_hostWriteReg s .cmd w).trans (writeCmd_error hs hd)
  refine ⟨eq_of_decode_eq_error hd, hstep.trans ?_⟩
  rcases eq_of_decode_eq_error hd with rfl | rfl <;> rfl

/-- Settles O1: the four commands by `decode_eq_ok_iff_toNat`, the errors by R114's first and second test, and the
configuration plays no part because an undecodable word is never issued. -/
theorem decodeFollowsTheFieldTests : Obligations.DecodeFollowsTheFieldTests := by
  unfold Obligations.DecodeFollowsTheFieldTests
  intro w
  refine ⟨decode_eq_illegalOp, fun hop hr => decode_eq_rsvdField hop (.inl hr),
    fun hop _ ho hf => decode_eq_rsvdField hop (.inr ⟨ho, hf⟩),
    fun hr ho hf => decode_eq_ok_iff_toNat.mpr ⟨hr, hf, ho⟩, fun hr ho => ?_,
    fun hr ho hf => decode_eq_ok_iff_toNat.mpr ⟨hr, hf, ho⟩, fun hr ho hf => decode_eq_ok_iff_toNat.mpr ⟨hr, hf, ho⟩,
    fun s e hs hd => ⟨_, (undecodableWordRaisesItsErrorAndNothingElse s w e hs hd).2, rfl, rfl⟩⟩
  have hd := decode_eq_tone_ofField (w := w) (BitVec.eq_of_toNat_eq ((rsvdField_toNat w).trans hr))
    (BitVec.eq_of_toNat_eq ((opField_toNat w).trans ho))
  exact ⟨_, number_of_decode_eq_tone hd, hd⟩

theorem ofNat_toNat_mod (w : Word) : BitVec.ofNat 32 (w.toNat % 2 ^ 32) = w := by
  rw [Nat.mod_eq_of_lt w.isLt, BitVec.ofNat_toNat, BitVec.setWidth_eq]

theorem decodeTableWord_encode (i : Instr) : decodeTableWord 32 (encode i).toNat = some i := by
  rw [decodeTableWord, if_pos (Nat.mod_lt _ (Nat.two_pow_pos 32)), ofNat_toNat_mod, decode_encode]

/-- A placed word is a host's write to CMD of the block taken idle (notes/assumptions/5.md). -/
theorem step_withFetchWord (s : State) (w : Word) :
    step (s.withFetchWord 32 w.toNat) = writeCmd w { s with seq := .idle } := by
  rw [State.withFetchWord, ofNat_toNat_mod]
  exact step_hostWriteReg { s with seq := .idle } .cmd w

/-- Settles O15: the next step is the CMD write of the word, and the word decodes to its command. -/
theorem fetchedWordIsTheCommandRun : Obligations.FetchedWordIsTheCommandRun := by
  unfold Obligations.FetchedWordIsTheCommandRun
  intro s i
  refine ⟨decodeTableWord_encode i, ?_⟩
  rw [step_withFetchWord, writeCmd_ok rfl (decode_encode i)]
  exact (exec_idle i rfl).symm

end Sys2Proof.Machine
end

section
/-! SUPPORT. The issue of a command: which check of R143 fails first, and what an issue then does (spec/40_sequencer.md
R140 to R144). -/

namespace Sys2Proof.Machine

open Sys2Proof.Safety

/-! ### The checks -/

/-- NOP alone has no buffer (R144). -/
theorem usesBuffer_iff {i : Instr} : usesBuffer i = true ↔ i ≠ .nop := by
  cases i <;> simp [usesBuffer]

/-- The lengths that R143 refuses. -/
theorem lengthSupported_eq_false_iff {i : Instr} {n : Nat} :
    lengthSupported i n = false ↔
      (i = .detect ∧ ¬(1 ≤ n ∧ n ≤ 65535)) ∨ (i = .analyze ∧ ¬(2 ≤ n ∧ n ≤ 65535)) := by
  rw [Bool.eq_false_iff]
  cases i with
  | nop => simp [lengthSupported]
  | tone fsel => simp [lengthSupported]
  | detect => simp only [ne_eq, lengthSupported_detect, true_and, reduceCtorEq, false_and, or_false]
  | analyze => simp only [ne_eq, lengthSupported_analyze, true_and, reduceCtorEq, false_and, false_or]

theorem checkOperands_eq_cfgFs {depth addr n : Nat} {i : Instr} (hi : i ≠ .nop) :
    checkOperands depth i 0 addr n = some .cfgFs := by
  rw [checkOperands, usesBuffer_iff.mpr hi]; rfl

theorem checkOperands_eq_len {depth fs addr n : Nat} {i : Instr} (hfs : fs ≠ 0) (hl : lengthSupported i n = false) :
    checkOperands depth i fs addr n = some .len := by
  simp [checkOperands, hfs, hl]

theorem checkOperands_eq_range {depth fs addr n : Nat} {i : Instr} (hi : i ≠ .nop) (hfs : fs ≠ 0)
    (hl : lengthSupported i n = true) (hr : depth < addr + n) :
    checkOperands depth i fs addr n = some .range := by
  simp [checkOperands, usesBuffer_iff.mpr hi, hfs, hl, hr]

/-- NOP has nothing to check (R144). -/
theorem checkOperands_nop (depth fs addr n : Nat) : checkOperands depth .nop fs addr n = none := rfl

/-! ### The issue -/

theorem issue_of_refused {i : Instr} {s : State} {e : CommandError} (h : checkIssue i s = some e) :
    issue i s = s.clearOutcome.raise e := by
  unfold issue; rw [h]

theorem issue_of_passed {i : Instr} {s : State} (h : checkIssue i s = none) :
    issue i s = s.clearOutcome.accept i := by
  unfold issue; rw [h]

/-- Settles O5: the conditions are those under which the checks pass, and an issue that passes them is an acceptance. -/
theorem commandIsAcceptedWhenEveryCheckPasses : Obligations.CommandIsAcceptedWhenEveryCheckPasses := by
  unfold Obligations.CommandIsAcceptedWhenEveryCheckPasses
  intro i s hs hfs hdetect hanalyze hrange
  have hlen : lengthSupported i s.cfg.argLen.toNat = true := by
    rw [← Bool.not_eq_false, lengthSupported_eq_false_iff]
    rintro (⟨hi, hn⟩ | ⟨hi, hn⟩)
    · exact hn (hdetect hi)
    · exact hn (hanalyze hi)
  have hc : checkIssue i s = none :=
    checkOperands_eq_none.mpr ⟨hfs ∘ usesBuffer_iff.mp, hlen, hrange ∘ usesBuffer_iff.mp⟩
  rw [exec_idle i hs, issue_of_passed hc]
  rfl

/-- Settles O7: NOP has nothing to check, so its issue is an acceptance. -/
theorem nopIssueIsAlwaysAccepted : Obligations.NopIssueIsAlwaysAccepted := by
  unfold Obligations.NopIssueIsAlwaysAccepted
  intro s hs
  refine ⟨s.clearOutcome.accept .nop, ?_, rfl, rfl, rfl, rfl, rfl, rfl, rfl, rfl, rfl, rfl, rfl⟩
  rw [exec_idle .nop hs, issue_of_passed (checkOperands_nop ..)]

/-! ### The CMD write -/

theorem step_hostWriteCmd (s : State) (w : Word) : step (present s (hostWriteReg .cmd w)) = writeCmd w s :=
  step_hostWriteReg s .cmd w

theorem step_hostWriteCmd_ok {s : State} {w : Word} {i : Instr} (hs : s.seq = .idle) (hd : decode w = .ok i) :
    step (present s (hostWriteReg .cmd w)) = .next (issue i (s.respond .writeOk)) :=
  (step_hostWriteCmd s w).trans (writeCmd_ok hs hd)

/-- Settles O13: the step is `writeCmd`, and each clause is one of its three cases. -/
theorem cmdWriteRunsTheDecodedCommand : Obligations.CmdWriteRunsTheDecodedCommand := by
  unfold Obligations.CmdWriteRunsTheDecodedCommand
  intro s w
  refine ⟨fun hs => ?_, fun i hs hd => ?_, fun e hs hd => ?_⟩
  · exact (step_hostWriteCmd s w).trans (writeCmd_busy hs w)
  · exact (step_hostWriteCmd_ok hs hd).trans (exec_idle i (s := s.respond .writeOk) hs).symm
  · exact (step_hostWriteCmd s w).trans (writeCmd_error hs hd)

/-- The CMD write of a command that a check refuses takes the error into STATUS and changes nothing else (R141,
R143). -/
theorem step_hostWriteCmd_of_refused {s : State} {w : Word} {i : Instr} {e : CommandError} (hs : s.seq = .idle)
    (hd : decode w = .ok i) (hc : checkIssue i s = some e) :
    step (present s (hostWriteReg .cmd w)) = .next { s with
      response := .writeOk
      status := { s.status with done := false, err := true, errcode := errorCode e } } := by
  rw [step_hostWriteCmd_ok hs hd, issue_of_refused (s := s.respond .writeOk) hc]
  rfl

/-- Settles O6: a word that does not decode is O8; each other clause says which check of R143 is the first to fail, or
that none is. -/
theorem issueChecksRaiseTheFirstFailingCode : Obligations.IssueChecksRaiseTheFirstFailingCode := by
  unfold Obligations.IssueChecksRaiseTheFirstFailingCode
  intro w s hs raises badLength badRange
  have length_ok : ∀ {i}, ¬badLength i → lengthSupported i s.cfg.argLen.toNat = true := fun h =>
    Bool.not_eq_false _ ▸ mt lengthSupported_eq_false_iff.mp h
  refine ⟨fun hd => ?_, fun hd => ?_, fun i hd hi hfs => ?_, fun i hd hfs hl => ?_, fun i hd hi hfs hl hr => ?_,
    fun i hd hpass => ?_⟩
  · exact (undecodableWordRaisesItsErrorAndNothingElse s w _ hs hd).2
  · exact (undecodableWordRaisesItsErrorAndNothingElse s w _ hs hd).2
  · refine step_hostWriteCmd_of_refused (e := .cfgFs) hs hd ?_
    rw [checkIssue, hfs]
    exact checkOperands_eq_cfgFs hi
  · exact step_hostWriteCmd_of_refused hs hd (checkOperands_eq_len hfs (lengthSupported_eq_false_iff.mpr hl))
  · exact step_hostWriteCmd_of_refused hs hd (checkOperands_eq_range hi hfs (length_ok hl) hr)
  · have hc : checkIssue i (s.respond .writeOk) = none := by
      by_cases hi : i = .nop
      · rw [hi]; exact checkOperands_nop ..
      · obtain ⟨hfs, hl, hr⟩ := hpass hi
        exact checkOperands_eq_none.mpr ⟨fun _ => hfs, length_ok hl, fun _ => Nat.not_lt.mp hr⟩
    refine ⟨_, step_hostWriteCmd_ok hs hd, ?_, ?_⟩ <;> rw [issue_of_passed hc] <;> rfl

end Sys2Proof.Machine
end

section
/-! SUPPORT. The completion of a command in flight: what every one sets and keeps, and the results of TONE, DETECT and
ANALYZE (spec/40_sequencer.md R145, R146, R150, spec/41_nco.md, spec/43_tone_detector.md,
spec/44_frequency_analyzer.md). -/

namespace Sys2Proof.Machine

open Sys2Proof.Safety

/-- What every completion sets and leaves alone, whatever the command (R146). -/
theorem completed_finish (i : Instr) (s : State) : Completed s (commandEffect i s).finish := by
  constructor <;> simp

/-- A latched command passes the checks under the conditions of R143. -/
theorem checkLatched_eq_none {i : Instr} {s : State} (hfs : s.lc.fs.toNat ≠ 0)
    (hlen : lengthSupported i s.lc.len.toNat = true)
    (hrange : s.lc.addr.toNat + s.lc.len.toNat ≤ s.params.ramDepth) : checkLatched i s = none :=
  checkOperands_eq_none.mpr ⟨fun _ => hfs, hlen, fun _ => hrange⟩

/-- Settles O14: the turn is the sequencer's, and what it does depends on SEQ alone. -/
theorem sequencerStepsExactlyWhileACommandIsInFlight : Obligations.SequencerStepsExactlyWhileACommandIsInFlight := by
  unfold Obligations.SequencerStepsExactlyWhileACommandIsInFlight
  intro s
  refine ⟨fun hs => ⟨sequencerTurn_busy hs, fun he => ?_⟩, fun hs => ⟨sequencerTurn_idle hs, fun he => ?_⟩⟩
  · exact (step_of_events_nil he).trans (sequencerTurn_busy hs)
  · exact (step_of_events_nil he).trans (sequencerTurn_idle hs)

/-- Settles O9: NOP has nothing to check and no effect, so its completion is the end of the command alone. -/
theorem nopCompletesWithNoOtherEffect : Obligations.NopCompletesWithNoOtherEffect := by
  unfold Obligations.NopCompletesWithNoOtherEffect
  intro s hs
  exact ⟨_, exec_busy hs (checkOperands_nop ..), completed_finish .nop s, rfl, rfl, fun _ => rfl⟩

/-! ### TONE -/

theorem tuningWord_toNat (f fs : Nat) :
    (tuningWord f fs).toNat = (2 ^ 33 * (f % fs) + fs) / (2 * fs) % 2 ^ 32 :=
  BitVec.toNat_ofNat _ _

/-- Sample n of the buffer that a TONE has written (R175, R176). -/
theorem readSample_toneEffect (fsel : FreqSel) (s : State) {n : Nat} (hn : n < s.lc.len.toNat) :
    ((toneEffect fsel s).readSample (s.lc.addr.toNat + n)).toInt =
      sineRom (n * (tuningWord (toneFrequency fsel s.lc) s.lc.fs.toNat).toNat % 2 ^ 32 / 2 ^ 22) := by
  let ftw := tuningWord (toneFrequency fsel s.lc) s.lc.fs.toNat
  let vs := toneSamples ftw 0#32 s.lc.len.toNat
  have hstored : vs[n]? = some (BitVec.ofInt 16 (sineRom (n * ftw.toNat % 2 ^ 32 / 2 ^ 22))) := by
    simpa using getElem?_toneSamples ftw 0#32 hn
  calc ((toneEffect fsel s).readSample (s.lc.addr.toNat + n)).toInt
      = ((s.storeSamples s.lc.addr.toNat vs).readSample (s.lc.addr.toNat + n)).toInt :=
        congrArg BitVec.toInt (State.readSample_congr rfl rfl _)
    _ = sineRom (n * ftw.toNat % 2 ^ 32 / 2 ^ 22) := by
        rw [State.readSample_storeSamples, if_pos (Nat.le_add_right _ _), Nat.add_sub_cancel_left, hstored,
          Option.getD_some, sineRom_toInt]

/-- A TONE writes no byte outside its buffer (R89). -/
theorem readByte_toneEffect_outside (fsel : FreqSel) (s : State) {a : Nat}
    (ha : a < sampleOffset s.lc.addr.toNat ∨ sampleOffset (s.lc.addr.toNat + s.lc.len.toNat) ≤ a) :
    (toneEffect fsel s).readByte a = s.readByte a :=
  State.readByte_storeSamples_outside s (by rwa [length_toneSamples])

/-- Settles O10: the completion is the effect of TONE, read sample by sample and outside its buffer. -/
theorem toneCompletesWithTheSamplesOfItsPhase : Obligations.ToneCompletesWithTheSamplesOfItsPhase := by
  unfold Obligations.ToneCompletesWithTheSamplesOfItsPhase
  intro fsel s hs hfs hrange f ftw
  have hf : f = toneFrequency fsel s.lc := by cases fsel <;> rfl
  have hftw : (tuningWord (toneFrequency fsel s.lc) s.lc.fs.toNat).toNat = ftw := hf ▸ tuningWord_toNat _ _
  refine ⟨_, exec_busy hs (checkLatched_eq_none hfs rfl hrange), completed_finish (.tone fsel) s, rfl, ?_,
    fun n hn => ?_, fun a ha => readByte_toneEffect_outside fsel s ha⟩
  · rw [← hftw, BitVec.ofNat_toNat, BitVec.setWidth_eq]
    rfl
  · exact hftw ▸ readSample_toneEffect fsel s hn

/-! ### DETECT -/

/-- A bin in the range of R45 and R47 is read back unchanged from its register. -/
theorem bin_toNat_eq {k : Nat} (h : k < 32768) : (BitVec.ofNat 32 k).toNat = k := by
  rw [BitVec.toNat_ofNat, Nat.mod_eq_of_lt (by omega)]

/-- The real part of a bin, read back from its result pair (R46, R204). -/
theorem toInt_dftRe_buffer {s : State} (k : Nat) (h : s.ram.wf) (hl : s.lc.len.toNat ≤ 65535) :
    (Pair64.ofInt (dftRe k s.lc.len.toNat (windowed s.lc.len.toNat 0 (buffer s)))).toInt = reSum s k := by
  rw [Pair64.toInt_ofInt_of_lt (dftRe_buffer_lt k h hl), dftRe_buffer s k h]

/-- The imaginary part of a bin, read back from its result pair (R46, R204). -/
theorem toInt_dftIm_buffer {s : State} (k : Nat) (h : s.ram.wf) (hl : s.lc.len.toNat ≤ 65535) :
    (Pair64.ofInt (dftIm k s.lc.len.toNat (windowed s.lc.len.toNat 0 (buffer s)))).toInt = imSum s k := by
  rw [Pair64.toInt_ofInt_of_lt (dftIm_buffer_lt k h hl), dftIm_buffer s k h]

/-- BIT after a DETECT: the strict comparison of the two powers (R230, R231). -/
theorem detectEffect_bit {s : State} (h : s.ram.wf) :
    (detectEffect s).status.bit =
      decide (powerSum s (binIndex s.lc.freq0.toNat s.lc.len.toNat s.lc.fs.toNat) <
        powerSum s (binIndex s.lc.freq1.toNat s.lc.len.toNat s.lc.fs.toNat)) := by
  rw [← dftPower_buffer s _ h, ← dftPower_buffer s _ h]
  rfl

/-- Settles O11: the completion is the effect of DETECT, whose sums fit their result pairs. -/
theorem detectCompletesWithTheComparisonOfItsTwoBins : Obligations.DetectCompletesWithTheComparisonOfItsTwoBins := by
  unfold Obligations.DetectCompletesWithTheComparisonOfItsTwoBins
  intro s hs hwf hfs hmin hmax hrange k0 k1
  have hc : checkLatched .detect s = none :=
    checkLatched_eq_none hfs ((lengthSupported_detect _).mpr ⟨hmin, hmax⟩) hrange
  exact ⟨_, exec_busy hs hc, completed_finish .detect s,
    congrArg (fun b => { s.status with done := true, bit := b }) (detectEffect_bit hwf),
    bin_toNat_eq (binIndex_lt_of_le hmax), bin_toNat_eq (binIndex_lt_of_le hmax),
    toInt_dftRe_buffer k0 hwf hmax, toInt_dftIm_buffer k0 hwf hmax,
    toInt_dftRe_buffer k1 hwf hmax, toInt_dftIm_buffer k1 hwf hmax,
    rfl, rfl, rfl, rfl, rfl, fun _ => rfl⟩

/-! ### ANALYZE -/

/-- The bin that an ANALYZE finds (R250). -/
def analysisBin (s : State) : Nat := peakBin (powerSum s) (s.lc.len.toNat / 2)

/-- The registers an ANALYZE writes, by the sums of R204. -/
theorem analyzeEffect_eq {s : State} (h : s.ram.wf) :
    analyzeEffect s =
      s.setAnalysis (analysisBin s) (reSum s (analysisBin s)) (imSum s (analysisBin s))
        (freqWord (analysisBin s) s.lc.len.toNat (s.lc.len.toNat / 2) s.lc.fs.toNat s.lc.fmap)
        (hsMatchFlag (analysisBin s) s.lc.len.toNat (s.lc.len.toNat / 2) s.lc.fs.toNat s.lc.start.toNat s.lc.tol.toNat
          s.lc.fmap) := by
  simp only [analyzeEffect, dftPower_buffer s _ h, dftRe_buffer s _ h, dftIm_buffer s _ h, analysisBin]

/-- The handshake test on the axis of R253, in integers (R255). -/
theorem hsMatchFlag_false (k n halfN fs start tol : Nat) :
    hsMatchFlag k n halfN fs start tol false = decide (|(k * fs : Int) - start * n| ≤ tol * n) := by
  rw [hsMatchFlag, if_neg Bool.false_ne_true, decide_eq_decide, ← Int.ofNat_le, Int.natCast_natAbs]
  push_cast
  rfl

/-- A single bin has frequency 0 on the endpoint axis (R255). -/
theorem hsMatchFlag_true_of_one {halfN : Nat} (h : halfN = 1) (k n fs start tol : Nat) :
    hsMatchFlag k n halfN fs start tol true = decide (start ≤ tol) := by
  rw [h]; rfl

/-- The handshake test on the endpoint axis of R254, in integers (R255). -/
theorem hsMatchFlag_true {halfN : Nat} (h : 2 ≤ halfN) (k n fs start tol : Nat) :
    hsMatchFlag k n halfN fs start tol true =
      decide (|(k * fs : Int) - 2 * ((halfN : Int) - 1) * start| ≤ 2 * ((halfN : Int) - 1) * tol) := by
  obtain ⟨m, rfl⟩ : ∃ m, halfN = m + 1 := ⟨halfN - 1, by omega⟩
  rw [hsMatchFlag, if_pos rfl, if_neg (by omega), decide_eq_decide, Nat.add_sub_cancel, ← Int.ofNat_le,
    Int.natCast_natAbs]
  push_cast
  rw [add_sub_cancel_right]

/-- Settles O12: the completion is the effect of ANALYZE, whose bin `peakBin_spec` describes. -/
theorem analyzeCompletesWithTheLowestPeakBin : Obligations.AnalyzeCompletesWithTheLowestPeakBin := by
  unfold Obligations.AnalyzeCompletesWithTheLowestPeakBin
  intro s hs hwf hfs hmin hmax hrange n K
  have hc : checkLatched .analyze s = none :=
    checkLatched_eq_none hfs ((lengthSupported_analyze _).mpr ⟨hmin, hmax⟩) hrange
  have hK : 1 ≤ K := (Nat.le_div_iff_mul_le (by decide)).mpr hmin
  obtain ⟨hk, hgreatest, hleast⟩ := peakBin_spec (powerSum s) hK
  have hexec := exec_busy hs hc
  have hdone := completed_finish .analyze s
  rw [commandEffect, analyzeEffect_eq hwf] at hexec hdone
  refine ⟨_, analysisBin s, hexec, hdone, hk, hgreatest, hleast,
    bin_toNat_eq (lt_of_lt_of_le hk (by omega)), Pair64.toInt_ofInt_of_lt (reSum_lt s _ hwf hmax),
    Pair64.toInt_ofInt_of_lt (imSum_lt s _ hwf hmax), rfl, ?_, rfl, rfl, rfl, rfl, rfl, rfl, rfl, rfl, fun _ => rfl⟩
  rw [State.finish_status, State.setAnalysis_status]
  dsimp only
  cases s.lc.fmap with
  | false => exact hsMatchFlag_false ..
  | true =>
    by_cases h1 : K = 1
    · rw [decide_eq_true h1]
      exact hsMatchFlag_true_of_one h1 ..
    · rw [decide_eq_false h1]
      exact hsMatchFlag_true (by omega) ..

end Sys2Proof.Machine
end

section
/-! SUPPORT. No step stops the machine, a command in flight completes, and no completion is lost (spec/40_sequencer.md
R141, R145 to R147, spec/70_reset_and_hazards.md R310, R324). -/

namespace Sys2Proof.Machine

open Sys2Proof.Safety

/-! ### The next state -/

/-- The turn of a sequencer whose latched command passed the checks completes it (R143, R146). -/
theorem sequencerTurn_completes {s : State} (h : LatchOk s) (hs : s.seq = .busy) :
    sequencerTurn s = .next (commandEffect s.lc.cmd s).finish :=
  (sequencerTurn_busy hs).trans (exec_busy hs (h.accepted hs))

theorem exists_sequencerTurn_eq_next {s : State} (h : LatchOk s) : ∃ t, sequencerTurn s = .next t := by
  cases hs : s.seq with
  | idle => exact ⟨s, sequencerTurn_idle hs⟩
  | busy => exact ⟨_, sequencerTurn_completes h hs⟩

theorem exists_performEvent_eq_next {s : State} (h : LatchOk s) (e : Event) : ∃ t, performEvent e s = .next t := by
  cases e with
  | transfer tr =>
    obtain ⟨t, ht, -⟩ := performTransfer_effect tr s
    exact ⟨t, ht⟩
  | sequencer => exact exists_sequencerTurn_eq_next h
  | powerOn => exact ⟨_, rfl⟩

/-- Settles O33: a transfer and a power-on always answer a next state, and the sequencer's turn does because LC passed
the checks. -/
theorem noStepStopsTheMachine : Obligations.NoStepStopsTheMachine := by
  unfold Obligations.NoStepStopsTheMachine
  intro s h
  rcases step_cases s with ⟨-, hstep⟩ | ⟨e, rest, -, hstep⟩ <;> rw [hstep]
  · exact exists_sequencerTurn_eq_next h.latch
  · exact exists_performEvent_eq_next (inv_events rest h).latch e

/-! ### A command in flight completes -/

/-- A step that is the sequencer's turn ends a run of one step with the command completed. -/
theorem run_one_completes {s s' : State} (h : LatchOk s') (hs : s'.seq = .busy) (hstep : step s = sequencerTurn s') :
    ∃ t, Sys2Proof.core.run 1 s = Host.Outcome.next (φ := Fault) (ρ := Refusal) t ∧ t.seq = .idle ∧
      t.status.done = true :=
  ⟨_, core_run_succ 0 (hstep.trans (sequencerTurn_completes h hs)), rfl, rfl⟩

/-- Settles O39, by induction on the waiting moves: a transfer keeps the command in flight and the invariant, a
sequencer's turn completes it, and so does the step after the last move. -/
theorem commandInFlightCompletes : Obligations.CommandInFlightCompletes := by
  unfold Obligations.CommandInFlightCompletes
  intro s hinv hs hres
  induction hev : s.events generalizing s with
  | nil =>
    obtain ⟨t, ht⟩ := run_one_completes hinv.latch hs (step_of_events_nil hev)
    exact ⟨1, t, le_rfl, ht⟩
  | cons e rest ih =>
    have hstep := step_of_events_cons hev
    have hinv' := inv_events rest hinv
    obtain ⟨he, hrest⟩ := List.forall_mem_cons.mp (hev ▸ hres)
    cases e with
    | sequencer =>
      obtain ⟨t, ht⟩ := run_one_completes hinv'.latch hs hstep
      exact ⟨1, t, Nat.le_add_left 1 _, ht⟩
    | powerOn => exact absurd he (by decide)
    | transfer tr =>
      obtain ⟨st, r, hnext, -, -⟩ := performTransfer_busy (s := { s with events := rest }) hs he
      have hstep' := hstep.trans hnext
      obtain ⟨k, t, hk, hrun, ht⟩ := ih _ (everyStepKeepsTheInvariant _ _ hinv hstep') hs hrest rfl
      exact ⟨k + 1, t, Nat.succ_le_succ hk, (core_run_succ k hstep').trans hrun, ht⟩

/-! ### No completion is lost -/

/-- DONE is 0 while a command is in flight, so a block with DONE = 1 is idle (R38, R141). -/
theorem idle_of_done {s : State} (h : StatusOk s) (hd : s.status.done = true) : s.seq = .idle := by
  cases hs : s.seq with
  | idle => rfl
  | busy => rw [(h.clearWhileBusy hs).1] at hd; cases hd

/-- The sequencer has no step while idle (R145). -/
theorem MoveEffect.eq_of_idle {s t : State} {m : Option Event} (he : MoveEffect s m t)
    (hm : m = none ∨ m = some .sequencer) (hs : s.seq = .idle) : t = s := by
  cases he with
  | rest => rfl
  | complete _ _ hb => exact absurd (hs.symm.trans hb) (by decide)
  | _ => rcases hm with hm | hm <;> cases hm

/-- The moves that clear DONE (R39, R141, R310, R311). -/
theorem MoveEffect.done_falls {s t : State} {m : Option Event} (he : MoveEffect s m t) (hs : s.status.done = true)
    (ht : t.status.done = false) :
    (∃ a v, m = some (hostWrite a 0xF#4 v) ∧ a.toNat = Reg.offset .cmd) ∨
    (∃ a v, m = some (hostWrite a 0xF#4 v) ∧ a.toNat = Reg.offset .status ∧ v.getLsbD 1 = true) ∨
    (∃ a v, m = some (hostWrite a 0xF#4 v) ∧ a.toNat = Reg.offset .ctrl ∧ v.getLsbD 2 = true) ∨
    m = some .powerOn := by
  cases he with
  | undecodable a v _ ha => exact .inl ⟨a, v, rfl, ha⟩
  | issue a v _ ha => exact .inl ⟨a, v, rfl, ha⟩
  | status a v ha =>
    refine .inr (.inl ⟨a, v, rfl, ha, ?_⟩)
    simpa [State.writeStatus_status, hs] using ht
  | softReset tr h =>
    obtain ⟨w, a, v, b⟩ := tr
    obtain ⟨rfl, rfl, ha, hv⟩ := isSoftReset_eq_true.mp h
    exact .inr (.inr (.inl ⟨a, v, rfl, ha, hv⟩))
  | powerOn => exact .inr (.inr (.inr rfl))
  | complete => cases ht
  | rest | answer | ctrl | config | ram => exact absurd (hs.symm.trans ht) (by decide)

/-- Settles O54: with DONE = 1 the block is idle, so only an issue makes it busy, and it then keeps DONE at 0 because
the invariant does. -/
theorem noCompletionIsLostBeforeItsAcknowledge : Obligations.NoCompletionIsLostBeforeItsAcknowledge := by
  unfold Obligations.NoCompletionIsLostBeforeItsAcknowledge
  intro s t hinv hd hstep hostWrites
  have hidle := idle_of_done hinv.status hd
  have heff := step_effect hstep
  have written : ∀ {r : Reg} {p : Word → Prop} {a v}, s.events.head? = some (hostWrite a 0xF#4 v) →
      a.toNat = r.offset → p v → hostWrites r p := fun hm ha hp =>
    (List.head?_eq_some_iff.mp hm).elim fun rest he => ⟨_, _, rest, he, ha, hp⟩
  refine ⟨hidle, fun hev => heff.eq_of_idle ?_ hidle, fun ht => ⟨?_, ?_⟩, fun ht => ?_⟩
  · rcases hev with he | ⟨rest, he⟩ <;> simp [he]
  · obtain ⟨a, v, i, hm, ha, -⟩ := heff.seq_rises hidle ht
    exact written hm ha trivial
  · exact ((everyStepKeepsTheInvariant s t hinv hstep).status.clearWhileBusy ht).1
  · rcases heff.done_falls hd ht with ⟨a, v, hm, ha⟩ | ⟨a, v, hm, ha, hv⟩ | ⟨a, v, hm, ha, hv⟩ | hm
    · exact .inl (written hm ha trivial)
    · exact .inr (.inl (written hm ha hv))
    · exact .inr (.inr (.inl (written hm ha hv)))
    · exact .inr (.inr (.inr (List.head?_eq_some_iff.mp hm)))

end Sys2Proof.Machine
end

section
/-! SUPPORT. The sine ROM quarter by quarter, the tuning word and the Hann window (spec/41_nco.md R171 to R174,
spec/42_spectral.md R201, R202). -/

namespace Sys2Proof.Machine

/-! ### The quarter-wave table -/

/-- The table rises along every row and from each row to the next (R173). -/
theorem quarterWave_le_succ {j : Nat} (h : j < 256) : quarterWave j ≤ quarterWave (j + 1) := by
  have rows : ∀ r < 16, ∀ c < 16, quarterWave (16 * r + c) ≤ quarterWave (16 * r + c + 1) := by decide
  simpa [Nat.div_add_mod] using rows (j / 16) (by omega) (j % 16) (by omega)

theorem quarterWave_mono {i j : Nat} (hij : i ≤ j) (hj : j ≤ 256) : quarterWave i ≤ quarterWave j := by
  induction j, hij using Nat.le_induction with
  | base => exact le_rfl
  | succ j _ ih => exact (ih (by omega)).trans (quarterWave_le_succ (by omega))

/-- The full amplitude stands in the last two entries (R173). -/
theorem quarterWave_eq_max {j : Nat} (h : j ≤ 256) : quarterWave j = 16384 ↔ 255 ≤ j := by
  have below : quarterWave 254 = 16383 := by decide
  have top : quarterWave 255 = 16384 := by decide
  constructor
  · intro hq
    by_contra! hj
    have := quarterWave_mono (show j ≤ 254 by omega) (by omega)
    omega
  · intro hj
    have := quarterWave_mono hj h
    have := (quarterWave_bounds j).2
    omega

/-- A sum over `16 * n` indices, row by row. -/
theorem sum_map_range_rows (f : Nat → Int) (n : Nat) :
    ((List.range (16 * n)).map f).sum =
      ((List.range n).map fun r => ((List.range 16).map fun c => f (16 * r + c)).sum).sum := by
  induction n with
  | zero => rfl
  | succ n ih =>
    rw [Nat.mul_succ, List.range_add, List.map_append, List.sum_append, ih, List.range_succ (n := n)]
    simp [Function.comp_def]

/-- Settles O43: the rows of the table are summed one by one, and its entries rise by `quarterWave_le_succ`. -/
theorem quarterWaveTableHasItsChecksum : Obligations.QuarterWaveTableHasItsChecksum := by
  unfold Obligations.QuarterWaveTableHasItsChecksum
  refine ⟨?_, fun _ => quarterWave_le_succ⟩
  rw [show 257 = 16 * 16 + 1 by decide, List.range_succ, List.map_append, List.sum_append, sum_map_range_rows]
  decide

/-! ### The quarters of the ROM (R171) -/

theorem sineRom_first {i : Nat} (h : i ≤ 256) : sineRom i = quarterWave i := if_pos h

theorem sineRom_second {i : Nat} (h : i ≤ 256) : sineRom (512 - i) = quarterWave i := by
  obtain rfl | h : i = 256 ∨ i < 256 := by omega
  · rfl
  obtain rfl | h0 : i = 0 ∨ 0 < i := by omega
  · rfl
  rw [sineRom, if_neg (by omega), if_pos (by omega), Nat.sub_sub_self (by omega)]

theorem sineRom_third {i : Nat} (h : i ≤ 256) : sineRom (512 + i) = -quarterWave i := by
  rw [sineRom, if_neg (by omega), if_neg (by omega), if_pos (by omega), Nat.add_sub_cancel_left]

theorem sineRom_fourth {i : Nat} (h : i ≤ 256) : sineRom (1024 - i) = -quarterWave i := by
  obtain rfl | h : i = 256 ∨ i < 256 := by omega
  · rfl
  rw [sineRom, if_neg (by omega), if_neg (by omega), if_neg (by omega), Nat.sub_sub_self (by omega)]

/-- An offset of 256 to 512 from the middle of the ROM, counted from the far end as the outer quarters are. -/
theorem exists_eq_512_sub {j : Nat} (h : 256 ≤ j) (h' : j ≤ 512) :
    ∃ k ≤ 256, j = 512 - k ∧ 512 + j = 1024 - k ∧ 512 - j = k :=
  ⟨512 - j, by omega⟩

/-- The second half wave is the first one negated. -/
theorem sineRom_half_wave {i : Nat} (h : i < 512) : sineRom (512 + i) = -sineRom i := by
  rcases le_total i 256 with hi | hi
  · rw [sineRom_third hi, sineRom_first hi]
  · obtain ⟨k, hk, hleft, hright, -⟩ := exists_eq_512_sub hi h.le
    rw [hright, hleft, sineRom_fourth hk, sineRom_second hk]

/-- Settles O42, from the four quarters of the ROM; the values at the ends of the quarters are evaluated. -/
theorem sineRomIsQuarterWaveSymmetric : Obligations.SineRomIsQuarterWaveSymmetric := by
  unfold Obligations.SineRomIsQuarterWaveSymmetric
  exact ⟨fun i h => (sineRom_second h).trans (sineRom_first h).symm, fun i => sineRom_half_wave,
    fun i _ => abs_le.mpr (sineRom_bounds i), fun _ _ => rfl, by decide⟩

/-! ### The quarters of the cosine read (R172) -/

theorem cosineRom_eq_sineRom {i k : Nat} (h : (i + 256) % 1024 = k) : cosineRom i = sineRom k := h ▸ rfl

theorem cosineRom_first {j : Nat} (h : j ≤ 256) : cosineRom j = quarterWave (256 - j) :=
  (cosineRom_eq_sineRom (by omega)).trans (sineRom_second (Nat.sub_le 256 j))

theorem cosineRom_second {j : Nat} (h : j ≤ 256) : cosineRom (512 - j) = -quarterWave (256 - j) :=
  (cosineRom_eq_sineRom (by omega)).trans (sineRom_third (Nat.sub_le 256 j))

theorem cosineRom_third {j : Nat} (h : j ≤ 256) : cosineRom (512 + j) = -quarterWave (256 - j) := by
  obtain rfl | hj : j = 256 ∨ j < 256 := by omega
  · rfl
  · exact (cosineRom_eq_sineRom (by omega)).trans (sineRom_fourth (Nat.sub_le 256 j))

theorem cosineRom_fourth {j : Nat} (h : j ≤ 256) : cosineRom (1024 - j) = quarterWave (256 - j) :=
  (cosineRom_eq_sineRom (by omega)).trans (sineRom_first (Nat.sub_le 256 j))

theorem cosineRom_mod (i : Nat) : cosineRom (i % 1024) = cosineRom i :=
  cosineRom_eq_sineRom (Nat.mod_add_mod ..)

/-- The cosine is even about its minimum: the third quarter mirrors the second, the fourth the first. -/
theorem cosineRom_mirror {j : Nat} (h : j ≤ 512) : cosineRom (512 + j) = cosineRom (512 - j) := by
  rcases le_total j 256 with hj | hj
  · rw [cosineRom_third hj, cosineRom_second hj]
  · obtain ⟨k, hk, -, hright, hleft⟩ := exists_eq_512_sub hj h
    rw [hright, hleft, cosineRom_fourth hk, cosineRom_first hk]

/-- The cosine read is even: its window of 1024 words runs the same from both ends. -/
theorem cosineRom_1024_sub {i : Nat} (h : i ≤ 1024) : cosineRom (1024 - i) = cosineRom i := by
  rcases le_total i 512 with hi | hi
  · have := cosineRom_mirror (Nat.sub_le 512 i)
    rwa [show 512 + (512 - i) = 1024 - i by omega, Nat.sub_sub_self hi] at this
  · obtain ⟨j, rfl⟩ := Nat.exists_eq_add_of_le hi
    rw [cosineRom_mirror (by omega), show 1024 - (512 + j) = 512 - j by omega]

/-- The cosine read is at its minimum within 1 of 512, where the table holds its last two entries, and nowhere else. -/
theorem cosineRom_512_sub_eq_min {j : Nat} (h : j ≤ 512) : cosineRom (512 - j) = -16384 ↔ j ≤ 1 := by
  rcases le_total j 256 with hj | hj
  · rw [cosineRom_second hj, neg_inj, quarterWave_eq_max (Nat.sub_le 256 j)]
    omega
  · obtain ⟨k, hk, -, -, hleft⟩ := exists_eq_512_sub hj h
    have := (quarterWave_bounds (256 - k)).1
    rw [hleft, cosineRom_first hk]
    omega

theorem cosineRom_eq_min {i : Nat} (h : i < 1024) : cosineRom i = -16384 ↔ 511 ≤ i ∧ i ≤ 513 := by
  obtain ⟨j, hj, rfl | rfl⟩ : ∃ j ≤ 512, i = 512 - j ∨ i = 512 + j := ⟨(i - 512) + (512 - i), by omega⟩
  · rw [cosineRom_512_sub_eq_min hj]
    omega
  · rw [cosineRom_mirror hj, cosineRom_512_sub_eq_min hj]
    omega

/-! ### The tuning word -/

/-- Half-up rounding before the reduction modulo FS: a whole multiple of FS adds a multiple of 2^32 (R174). -/
theorem roundHalfUp_eq_add (f : Nat) {fs : Nat} (h : 1 ≤ fs) :
    (2 ^ 33 * f + fs) / (2 * fs) = (2 ^ 33 * (f % fs) + fs) / (2 * fs) + 2 ^ 32 * (f / fs) := by
  have split : 2 ^ 33 * f + fs = 2 ^ 33 * (f % fs) + fs + 2 * fs * (2 ^ 32 * (f / fs)) := by
    conv_lhs => rw [← Nat.mod_add_div f fs]
    ring
  rw [split, Nat.add_mul_div_left _ _ (by omega)]

/-- A quotient by `2 * d` of `x + d` is the nearest integer to `x / (2 * d)`, ties up. -/
theorem half_up_bounds (x : Nat) {d : Nat} (h : 1 ≤ d) :
    2 * ((x + d) / (2 * d)) * d ≤ x + d ∧ x + d < 2 * ((x + d) / (2 * d)) * d + 2 * d := by
  have := Nat.div_add_mod (x + d) (2 * d)
  have := Nat.mod_lt (x + d) (show 0 < 2 * d by omega)
  rw [show 2 * ((x + d) / (2 * d)) * d = 2 * d * ((x + d) / (2 * d)) by ring]
  omega

/-- The reduction of a phase step modulo 2^32 takes whole multiples of FS from the frequency it produces (R174). -/
theorem mod_phase_mul_fs (q fs : Nat) :
    2 * ((q % 2 ^ 32 : Nat) : Int) * fs = 2 * (q : Int) * fs - 2 ^ 33 * ((q / 2 ^ 32 : Nat) * fs) := by
  have := congrArg (Nat.cast (R := Int)) (Nat.mod_add_div q (2 ^ 32))
  push_cast at this ⊢
  linear_combination 2 * (fs : Int) * this

/-- The produced frequency is, modulo FS, within half a phase step of the one asked for (R174). -/
theorem tuningWord_error (f : Nat) {fs : Nat} (h : 1 ≤ fs) :
    ∃ z : Int, |2 * ((tuningWord f fs).toNat : Int) * (fs : Int) -
      2 ^ 33 * (((f % fs : Nat) : Int) + z * (fs : Int))| ≤ (fs : Int) := by
  obtain ⟨hlo, hhi⟩ := half_up_bounds (2 ^ 33 * (f % fs)) h
  rw [tuningWord_toNat]
  generalize (2 ^ 33 * (f % fs) + fs) / (2 * fs) = q at hlo hhi ⊢
  zify at hlo hhi
  refine ⟨-(q / 2 ^ 32 : Nat), ?_⟩
  rw [mod_phase_mul_fs, abs_le]
  constructor <;> push_cast at hlo hhi ⊢ <;> linarith

/-- Settles O44: the nearest integer is the half-up quotient before f is reduced modulo FS, which is the formula's
quotient plus a multiple of 2^32 (`roundHalfUp_eq_add`). -/
theorem tuningWordIsTheNearestInteger : Obligations.TuningWordIsTheNearestInteger := by
  unfold Obligations.TuningWordIsTheNearestInteger
  intro f fs h
  have nearest := half_up_bounds (2 ^ 33 * f) h
  refine ⟨⟨(2 ^ 33 * f + fs) / (2 * fs), by omega, by omega, ?_⟩, tuningWord_toNat f fs, ?_, tuningWord_error f h⟩
  · rw [tuningWord_toNat, roundHalfUp_eq_add f h, Nat.add_mul_mod_self_left]
  · rw [tuningWord, Nat.mod_mod, tuningWord]

/-! ### The window -/

theorem windowCoeff_eq {len : Nat} (h : 2 ≤ len) (n : Nat) :
    windowCoeff n len = 16384 - cosineRom (windowIndex n len) := if_neg (by omega)

theorem windowIndex_lt (n len : Nat) : windowIndex n len < 1024 := Nat.mod_lt _ (by decide)

theorem windowIndex_zero {len : Nat} (h : 2 ≤ len) : windowIndex 0 len = 0 := by
  rw [windowIndex, Nat.div_eq_of_lt (by omega)]

theorem windowIndex_last {len : Nat} (h : 2 ≤ len) : windowIndex (len - 1) len = 0 := by
  rw [windowIndex, show 2048 * (len - 1) + (len - 1) = len - 1 + 2 * (len - 1) * 1024 by ring,
    Nat.add_mul_div_left _ _ (by omega), Nat.div_eq_of_lt (by omega)]

theorem windowCoeff_zero {len : Nat} (h : 2 ≤ len) : windowCoeff 0 len = 0 := by
  rw [windowCoeff_eq h, windowIndex_zero h]
  decide

theorem windowCoeff_last {len : Nat} (h : 2 ≤ len) : windowCoeff (len - 1) len = 0 := by
  rw [windowCoeff_eq h, windowIndex_last h]
  decide

/-- The window is at its maximum where the cosine read is at its minimum (notes/assumptions/9.md). -/
theorem windowCoeff_eq_max {len : Nat} (h : 2 ≤ len) (n : Nat) :
    windowCoeff n len = 32768 ↔ 511 ≤ windowIndex n len ∧ windowIndex n len ≤ 513 := by
  rw [← cosineRom_eq_min (windowIndex_lt n len), windowCoeff_eq h]
  omega

/-- The quotient of the distance to `1025 * d` mirrors the quotient of `a`, unless `d` divides `a`. -/
theorem div_eq_1024_sub_div {a b d : Nat} (hab : a + b = 1025 * d) (ha : a % d ≠ 0) : b / d = 1024 - a / d := by
  have hd : 0 < d := Nat.pos_of_ne_zero (by rintro rfl; omega)
  have hq := Nat.div_add_mod' a d
  have hr := Nat.mod_lt a hd
  have hq' : a / d < 1025 := Nat.lt_of_mul_lt_mul_right (a := d) (by omega)
  obtain ⟨p, hp⟩ := Nat.exists_eq_add_of_lt hq'
  have hsum : (a / d + p) * d = 1024 * d := by rw [show a / d + p = 1024 by omega]
  rw [add_mul] at hsum
  rw [show 1024 - a / d = p by omega]
  exact Nat.div_eq_of_lt_le (by omega) (by rw [Nat.succ_mul]; omega)

/-- Half-up rounding of `x / (2 * m)` leaves no remainder only at an exact half-integer (R202). -/
theorem add_half_mod_ne_zero {x m : Nat} (hm : 1 ≤ m) (h : x % (2 * m) ≠ m) : (x + m) % (2 * m) ≠ 0 := by
  intro h0
  have : x + m ≡ m + m [MOD 2 * m] := by
    rw [← two_mul]
    exact h0.trans (Nat.mod_self _).symm
  exact h (Eq.trans (this.add_right_cancel' m) (Nat.mod_eq_of_lt (by omega)))

/-- Sample n and its mirror image read the cosine at mirrored indices, unless n is an exact half-integer (R202). -/
theorem cosineRom_windowIndex_mirror {n len : Nat} (h : 2 ≤ len) (hn : n < len)
    (htie : 2 * (n * 1024) % (2 * (len - 1)) ≠ len - 1) :
    cosineRom (windowIndex (len - 1 - n) len) = cosineRom (windowIndex n len) := by
  have hmod := add_half_mod_ne_zero (by omega) htie
  rw [show 2 * (n * 1024) = 2048 * n by ring] at hmod
  have hdiv := div_eq_1024_sub_div (b := 2048 * (len - 1 - n) + (len - 1)) (by omega) hmod
  have hle : (2048 * n + (len - 1)) / (2 * (len - 1)) ≤ 1024 :=
    Nat.le_of_lt_succ (Nat.div_lt_of_lt_mul (by omega))
  rw [windowIndex, windowIndex, hdiv, cosineRom_mod, cosineRom_mod, cosineRom_1024_sub hle]

/-- Settles O45: each clause is a lemma about the cosine at `windowIndex`: least near 512, greatest at the two ends, and
the same at mirror images off the half-integers. -/
theorem windowCoefficientsAreBoundedAndSymmetric : Obligations.WindowCoefficientsAreBoundedAndSymmetric := by
  unfold Obligations.WindowCoefficientsAreBoundedAndSymmetric
  refine ⟨fun n len h _ => ?_, fun len h => ⟨windowCoeff_zero h, windowCoeff_last h⟩, fun n hn => ?_,
    fun n len h hn htie => ?_⟩
  · obtain ⟨hlo, hhi⟩ := windowCoeff_bounds n len
    exact ⟨hlo, hhi, windowCoeff_eq_max h n⟩
  · obtain rfl | rfl : n = 0 ∨ n = 1 := by omega
    · exact windowCoeff_zero le_rfl
    · exact windowCoeff_last le_rfl
  · rw [windowCoeff_eq h, windowCoeff_eq h, cosineRom_windowIndex_mirror h hn htie]

end Sys2Proof.Machine
end

section
/-! SUPPORT. The windowed samples, the bounds of the DFT, the selection of a bin and a DETECT of one bin or of silence
(spec/42_spectral.md R203 to R209, spec/43_tone_detector.md R232). -/

namespace Sys2Proof.Machine

open Sys2Proof.Safety

/-! ### The windowed samples -/

theorem windowCoeff_of_len_one (n : Nat) : windowCoeff n 1 = 32768 := if_pos rfl

theorem windowed_singleton (len n : Nat) (x : Int) : windowed len n [x] = [x * windowCoeff n len / 32768] := by
  rw [windowed, windowed, shiftRight_15]

/-- Settles O46: the windowed value is the floored quotient, and where the coefficient is 32768, as it is for N = 1, the
quotient undoes the product. -/
theorem windowedSampleIsTheFloorAndFits : Obligations.WindowedSampleIsTheFloorAndFits := by
  unfold Obligations.WindowedSampleIsTheFloorAndFits
  intro x n len _ _
  obtain ⟨hlo, hhi⟩ := windowed_value_bounds (sample_toInt_bounds x) (windowCoeff_bounds n len)
  have hself (hw : windowCoeff n len = 32768) : x.toInt * windowCoeff n len / 32768 = x.toInt := by
    rw [hw, Int.mul_ediv_cancel _ (by decide)]
  refine ⟨_, windowed_singleton len n x.toInt, Int.ediv_mul_le _ (by decide),
    Int.lt_ediv_add_one_mul_self _ (by decide), hlo, hhi, hself, ?_⟩
  rintro rfl
  exact hself (windowCoeff_of_len_one n)

/-! ### The bounds of the DFT -/

/-- The samples of any list of 16-bit words are 16-bit values. -/
theorem map_toInt_bounds (xs : List Sample) : ∀ x ∈ xs.map BitVec.toInt, -32768 ≤ x ∧ x ≤ 32767 :=
  List.forall_mem_map.mpr fun v _ => sample_toInt_bounds v

/-- A sum of at most 65535 products stays in the bound of R205. -/
theorem correlate_le {rom : Nat → Int} {k len n : Nat} {xs : List Int} (hl : xs.length ≤ 65535)
    (hx : ∀ x ∈ xs, -32768 ≤ x ∧ x ≤ 32767) (hr : ∀ i, -16384 ≤ rom i ∧ rom i ≤ 16384) :
    |correlate rom k len n xs| ≤ 65535 * 2 ^ 29 :=
  (correlate_bound hx hr).trans (by omega)

section dftBounds
variable {k len : Nat} {xw : List Int} (hl : xw.length ≤ 65535) (hx : ∀ y ∈ xw, -32768 ≤ y ∧ y ≤ 32767)
include hl hx

theorem abs_dftRe_le : |dftRe k len xw| ≤ 65535 * 2 ^ 29 := correlate_le hl hx cosineRom_bounds

theorem abs_dftIm_le : |dftIm k len xw| ≤ 65535 * 2 ^ 29 := by
  rw [dftIm, abs_neg]
  exact correlate_le hl hx sineRom_bounds

theorem abs_dftRe_lt : |dftRe k len xw| < 2 ^ 45 := (abs_dftRe_le hl hx).trans_lt (by norm_num)

theorem abs_dftIm_lt : |dftIm k len xw| < 2 ^ 45 := (abs_dftIm_le hl hx).trans_lt (by norm_num)

/-- Two parts below 2^45 have squares below 2^90 each (R207). -/
theorem dftPower_lt : dftPower k len xw < 2 ^ 91 := by
  have hre := pow_lt_pow_left₀ (abs_dftRe_lt (k := k) (len := len) hl hx) (abs_nonneg _) two_ne_zero
  have him := pow_lt_pow_left₀ (abs_dftIm_lt (k := k) (len := len) hl hx) (abs_nonneg _) two_ne_zero
  rw [sq_abs] at hre him
  rw [dftPower, binPower]
  linarith

end dftBounds

theorem dftPower_nonneg (k len : Nat) (xw : List Int) : 0 ≤ dftPower k len xw :=
  add_nonneg (mul_self_nonneg _) (mul_self_nonneg _)

/-- Settles O47: every windowed sample is a 16-bit value, so the bound of one product, summed, gives each clause; a
partial sum is the sum over a shorter list. -/
theorem dftPartsAndPowerAreBounded : Obligations.DftPartsAndPowerAreBounded := by
  unfold Obligations.DftPartsAndPowerAreBounded
  intro xs k hlen _ xw
  have hx : ∀ y ∈ xw, -32768 ≤ y ∧ y ≤ 32767 := windowed_bounds (map_toInt_bounds xs)
  have hl : xw.length ≤ 65535 := by simpa [xw] using hlen
  have hre := abs_dftRe_lt (k := k) (len := xs.length) hl hx
  have him := abs_dftIm_lt (k := k) (len := xs.length) hl hx
  refine ⟨fun y hy => ?_, fun i => ⟨abs_le.mpr (cosineRom_bounds i), abs_le.mpr (sineRom_bounds i)⟩, fun m _ => ?_,
    hre, him, Pair64.toInt_ofInt_of_lt hre, Pair64.toInt_ofInt_of_lt him, dftPower_nonneg .., dftPower_lt hl hx⟩
  · obtain ⟨hlo, hhi⟩ := hx y hy
    exact abs_le.mpr ⟨hlo, by omega⟩
  · have hlm : (xw.take m).length ≤ 65535 := (List.length_take_le' m xw).trans hl
    have hxm : ∀ y ∈ xw.take m, -32768 ≤ y ∧ y ≤ 32767 := fun y hy => hx y (List.mem_of_mem_take hy)
    exact ⟨abs_dftRe_le hlm hxm, abs_dftIm_le hlm hxm⟩

/-! ### The selection of a bin -/

theorem binIndex_le_top (f len fs : Nat) : binIndex f len fs ≤ (len - 1) / 2 := min_le_right _ _

/-- The selected bin reaches k iff F lies above the midpoint of bins k - 1 and k and k is at most the top positive bin.
Everything below about `binIndex` follows from this. -/
theorem le_binIndex_iff {f len fs k : Nat} (h : 1 ≤ fs) :
    k ≤ binIndex f len fs ↔ 2 * (k * fs) < 2 * (f * len) + fs ∧ k ≤ (len - 1) / 2 := by
  rw [binIndex, le_min_iff, Nat.le_div_iff_mul_le (by omega), Nat.mul_left_comm, Nat.mul_assoc 2 f len,
    Nat.le_sub_one_iff_lt (by omega)]

/-- The selected bin is at most half a bin above F. -/
theorem binIndex_mul_lt (f len : Nat) {fs : Nat} (h : 1 ≤ fs) :
    2 * (binIndex f len fs * fs) < 2 * (f * len) + fs :=
  ((le_binIndex_iff h).mp le_rfl).1

/-- Below the top positive bin, the selected bin is at most half a bin below F. -/
theorem le_binIndex_mul {f len fs : Nat} (h : 1 ≤ fs) (htop : binIndex f len fs < (len - 1) / 2) :
    2 * (f * len) ≤ 2 * (binIndex f len fs * fs) + fs := by
  have hnext := mt (le_binIndex_iff h).mpr (Nat.not_succ_le_self (binIndex f len fs))
  rw [Nat.succ_mul (binIndex f len fs)] at hnext
  omega

/-- N times the distance of the frequency of bin j from F, on the axis of R206. -/
def binDistance (f len fs j : Nat) : Int := |binAxisTimesLen j len fs - (f * len : Nat)|

theorem binDistance_of_le {j len : Nat} (h : j ≤ (len - 1) / 2) (f fs : Nat) :
    binDistance f len fs j = (((j * fs : Nat) : Int) - (f * len : Nat)).natAbs := by
  rw [binDistance, binAxisTimesLen, if_pos h, Int.abs_eq_natAbs, Nat.cast_mul j fs]

/-- A bin of the negative half lies at or below 0 Hz, so it is no nearer to F than bin 0. -/
theorem binDistance_zero_le {j len : Nat} (htop : (len - 1) / 2 < j) (hj : j < len) (f fs : Nat) :
    binDistance f len fs 0 ≤ binDistance f len fs j := by
  have haxis : binAxisTimesLen j len fs ≤ 0 := by
    rw [binAxisTimesLen, if_neg htop.not_ge]
    exact mul_nonpos_of_nonpos_of_nonneg (by omega) (Nat.cast_nonneg fs)
  rw [binDistance_of_le (Nat.zero_le _), binDistance, Int.abs_eq_natAbs]
  omega

/-- A bin below the selected one is further from F, which lies above the midpoint of each two bins up to that one. -/
theorem binDistance_binIndex_lt {f len fs j : Nat} (h : 1 ≤ fs) (hj : j < binIndex f len fs) :
    binDistance f len fs (binIndex f len fs) < binDistance f len fs j := by
  have htop := binIndex_le_top f len fs
  have habove := binIndex_mul_lt f len h
  have hstep := Nat.mul_le_mul_right fs hj
  rw [Nat.succ_mul] at hstep
  rw [binDistance_of_le htop, binDistance_of_le (hj.le.trans htop)]
  omega

/-- A bin of the positive half above the selected one is no nearer to F. -/
theorem binDistance_binIndex_le_of_lt {f len fs j : Nat} (h : 1 ≤ fs) (hj : binIndex f len fs < j)
    (htop : j ≤ (len - 1) / 2) : binDistance f len fs (binIndex f len fs) ≤ binDistance f len fs j := by
  have hbelow := le_binIndex_mul h (hj.trans_le htop)
  have hstep := Nat.mul_le_mul_right fs hj
  rw [Nat.succ_mul] at hstep
  rw [binDistance_of_le (binIndex_le_top f len fs), binDistance_of_le htop]
  omega

/-- No bin of the positive half is nearer to F than the selected one. -/
theorem binDistance_binIndex_le {f len fs j : Nat} (h : 1 ≤ fs) (hj : j ≤ (len - 1) / 2) :
    binDistance f len fs (binIndex f len fs) ≤ binDistance f len fs j := by
  rcases lt_trichotomy j (binIndex f len fs) with hlt | rfl | hgt
  · exact (binDistance_binIndex_lt h hlt).le
  · rfl
  · exact binDistance_binIndex_le_of_lt h hgt hj

/-- Settles O48: on the positive half the selected bin is the least nearest one, and a bin of the negative half is no
nearer to F than bin 0. -/
theorem binIndexIsTheLeastNearestBin : Obligations.BinIndexIsTheLeastNearestBin := by
  unfold Obligations.BinIndexIsTheLeastNearestBin
  intro f len fs hlen hfs
  have htop := binIndex_le_top f len fs
  refine ⟨rfl, by omega, fun j hj => ?_, fun j hj => binDistance_binIndex_lt hfs hj⟩
  rcases le_or_gt j ((len - 1) / 2) with hpos | hneg
  · exact binDistance_binIndex_le hfs hpos
  · exact (binDistance_binIndex_le hfs (Nat.zero_le _)).trans (binDistance_zero_le hneg hj f fs)

/-! ### Its corner cases -/

theorem binIndex_zero (len : Nat) {fs : Nat} (h : 1 ≤ fs) : binIndex 0 len fs = 0 := by
  have := mt (le_binIndex_iff (f := 0) (len := len) (k := 1) h).mp (by omega)
  omega

/-- One or two samples have only bin 0 on the positive half of the axis (R209). -/
theorem binIndex_of_len_le_two {len : Nat} (h : len ≤ 2) (f fs : Nat) : binIndex f len fs = 0 := by
  have := binIndex_le_top f len fs
  omega

/-- A frequency at or beyond the top positive bin selects it (R209). -/
theorem binIndex_eq_top {f len fs : Nat} (h : 1 ≤ fs) (hf : (len - 1) / 2 * fs ≤ f * len) :
    binIndex f len fs = (len - 1) / 2 :=
  le_antisymm (binIndex_le_top f len fs) ((le_binIndex_iff h).mpr ⟨by omega, le_rfl⟩)

/-- Two frequencies of one bin below the top are both within half a bin of it; of the top bin, only the lower bound
holds. -/
theorem close_or_top_of_binIndex_eq {f0 f1 len fs : Nat} (h : 1 ≤ fs)
    (heq : binIndex f0 len fs = binIndex f1 len fs) :
    (f1 - f0) * len < fs ∨ ((len - 1) / 2 * fs ≤ f0 * len + fs ∧ binIndex f0 len fs = (len - 1) / 2) := by
  have habove := binIndex_mul_lt f0 len h
  rcases (binIndex_le_top f0 len fs).lt_or_eq with hlt | htop
  · have hbelow := le_binIndex_mul h (heq ▸ hlt)
    rw [← heq] at hbelow
    exact .inl (by rw [Nat.sub_mul]; omega)
  · rw [htop] at habove
    exact .inr ⟨by omega, htop⟩

/-- Settles O49: each clause is a lemma about `binIndex`. -/
theorem binIndexCornerCases : Obligations.BinIndexCornerCases := by
  unfold Obligations.BinIndexCornerCases
  exact ⟨fun len fs _ hfs => binIndex_zero len hfs,
    fun f fs _ => ⟨binIndex_of_len_le_two (by decide) f fs, binIndex_of_len_le_two le_rfl f fs⟩,
    fun f len fs _ hfs hf => binIndex_eq_top hfs hf,
    fun f len fs _ hlen _ => binIndex_lt_of_le hlen,
    fun f0 f1 len fs _ hfs _ heq => close_or_top_of_binIndex_eq hfs heq⟩

/-! ### DETECT of one bin or of silence -/

/-- A buffer of zeros has no power in any bin. -/
theorem powerSum_of_silence {s : State} (h : ∀ n, n < s.lc.len.toNat → sampleValue s n = 0) (k : Nat) :
    powerSum s k = 0 := by
  have hw : ∀ n ∈ Finset.range s.lc.len.toNat, windowedValue s n = 0 := fun n hn => by
    rw [windowedValue, h n (Finset.mem_range.mp hn), zero_mul, Int.zero_ediv]
  have hre : reSum s k = 0 := Finset.sum_eq_zero fun n hn => by rw [hw n hn, zero_mul]
  have him : imSum s k = 0 := neg_eq_zero.mpr (Finset.sum_eq_zero fun n hn => by rw [hw n hn, zero_mul])
  rw [powerSum, hre, him, zero_pow two_ne_zero, add_zero]

/-- Settles O52: BIT is the strict comparison of two powers (O11), which are equal: those of one bin, or both 0. -/
theorem detectOfOneBinOrSilenceGivesZero : Obligations.DetectOfOneBinOrSilenceGivesZero := by
  unfold Obligations.DetectOfOneBinOrSilenceGivesZero
  intro s hs hwf hfs hmin hmax hrange hcase
  obtain ⟨t, hexec, hdone, hstatus, -⟩ :=
    detectCompletesWithTheComparisonOfItsTwoBins s hs hwf hfs hmin hmax hrange
  refine ⟨t, hexec, hdone.seq, hdone.done, ?_⟩
  have hpower : powerSum s (binIndex s.lc.freq1.toNat s.lc.len.toNat s.lc.fs.toNat) =
      powerSum s (binIndex s.lc.freq0.toNat s.lc.len.toNat s.lc.fs.toNat) := by
    rcases hcase with hfreq | hlen | hbin | hsilent
    · rw [hfreq]
    · rw [binIndex_of_len_le_two hlen, binIndex_of_len_le_two hlen]
    · rw [hbin]
    · rw [powerSum_of_silence hsilent, powerSum_of_silence hsilent]
  rw [hstatus]
  exact decide_eq_false hpower.not_gt

end Sys2Proof.Machine
end

section
/-! SUPPORT. The frequency word and the corner cases of ANALYZE (spec/44_frequency_analyzer.md R253 to R256). -/

namespace Sys2Proof.Machine

open Sys2Proof.Safety

/-! ### The frequency word -/

/-- On the bin-centre axis the word is the quotient of R253 in 32 bits. -/
theorem freqWord_false_toNat (k n halfN fs : Nat) :
    (freqWord k n halfN fs false).toNat = 256 * k * fs / n % 2 ^ 32 :=
  BitVec.toNat_ofNat _ _

/-- A single bin has frequency 0 on the endpoint axis (R254). -/
theorem freqWord_true_of_one {halfN : Nat} (h : halfN = 1) (k n fs : Nat) : freqWord k n halfN fs true = 0#32 :=
  if_pos h

/-- On the endpoint axis of two or more bins the word is the quotient of R254 in 32 bits. -/
theorem freqWord_true_toNat {halfN : Nat} (h : 2 ≤ halfN) (k n fs : Nat) :
    (freqWord k n halfN fs true).toNat = 128 * k * fs / (halfN - 1) % 2 ^ 32 := by
  rw [freqWord, if_pos rfl, if_neg (by omega), BitVec.toNat_ofNat]

/-- Bin 0 has frequency 0 on both axes. -/
theorem freqWord_zero (n halfN fs : Nat) (fmap : Bool) : freqWord 0 n halfN fs fmap = 0#32 := by
  rw [freqWord, mul_zero, mul_zero, zero_mul, Nat.zero_div, Nat.zero_div, ite_self, ite_self]

/-- A bin of the positive half lies below FS / 2 on the bin-centre axis (R253). -/
theorem binCentreQuotient_lt {n k fs : Nat} (hk : k < n / 2) (hfs : 1 ≤ fs) : 256 * k * fs / n < 128 * fs := by
  have hbelow : 2 * k * fs < n * fs := Nat.mul_lt_mul_of_pos_right (by omega) hfs
  rw [Nat.div_lt_iff_lt_mul (by omega)]
  calc 256 * k * fs = 128 * (2 * k * fs) := by ring
    _ < 128 * (n * fs) := by omega
    _ = 128 * fs * n := by ring

/-- A bin of the positive half lies at most at FS / 2 on the endpoint axis (R254). -/
theorem endpointQuotient_le {halfN k : Nat} (hk : k < halfN) (fs : Nat) : 128 * k * fs / (halfN - 1) ≤ 128 * fs := by
  refine Nat.div_le_of_le_mul ?_
  calc 128 * k * fs = k * (128 * fs) := by ring
    _ ≤ (halfN - 1) * (128 * fs) := Nat.mul_le_mul_right _ (Nat.le_sub_one_of_lt hk)

/-- Settles O50: each word is its quotient in 32 bits, and both quotients are at most 128 * FS, which is below 2^32 where
FS is below 2^25. -/
theorem frequencyWordIsExactBelowTwoToThe25 : Obligations.FrequencyWordIsExactBelowTwoToThe25 := by
  unfold Obligations.FrequencyWordIsExactBelowTwoToThe25
  intro n k fs _ hk
  have hend := endpointQuotient_le hk fs
  refine ⟨binCentreQuotient_lt hk, hend, freqWord_false_toNat .., fun hone => freqWord_true_of_one hone ..,
    fun htwo => freqWord_true_toNat htwo .., fun hfs => ⟨?_, fun htwo => ?_⟩⟩
  · have hcentre : 256 * k * fs / n < 2 ^ 32 := by
      rcases Nat.eq_zero_or_pos fs with rfl | hpos
      · simp
      · exact (binCentreQuotient_lt hk hpos).trans (by omega)
    rw [freqWord_false_toNat, Nat.mod_eq_of_lt hcentre]
  · rw [freqWord_true_toNat htwo, Nat.mod_eq_of_lt (by omega)]

/-! ### ANALYZE of one bin or of silence -/

/-- Bin 0 lies at 0 Hz on both axes, so its distance from START_FREQ, in the scale of either axis, is START_FREQ itself
(R255). -/
theorem hsMatchFlag_zero {n halfN : Nat} (hn : 0 < n) (hhalf : 0 < halfN) (fs start tol : Nat) (fmap : Bool) :
    hsMatchFlag 0 n halfN fs start tol fmap = decide (start ≤ tol) := by
  have hdistance (m : Nat) : ((0 * fs : Nat) - (m : Nat) : Int).natAbs = m := by omega
  rw [hsMatchFlag, hdistance, hdistance]
  cases fmap with
  | false => exact decide_eq_decide.mpr (Nat.mul_le_mul_right_iff hn)
  | true =>
    by_cases hone : halfN = 1
    · rw [if_pos rfl, if_pos hone]
    · rw [if_pos rfl, if_neg hone]
      exact decide_eq_decide.mpr (Nat.mul_le_mul_left_iff (by omega))

/-- An ANALYZE finds bin 0 where it is the only bin, and where no bin has more power (R256). -/
theorem analysisBin_eq_zero {s : State} (hmin : 2 ≤ s.lc.len.toNat)
    (h : s.lc.len.toNat ≤ 3 ∨ ∀ n, n < s.lc.len.toNat → sampleValue s n = 0) : analysisBin s = 0 := by
  obtain ⟨hlt, -, hleast⟩ := peakBin_spec (powerSum s) (halfN := s.lc.len.toNat / 2) (by omega)
  rcases h with hlen | hsilent
  · rw [analysisBin]
    omega
  · by_contra hne
    have hless := hleast 0 (Nat.pos_of_ne_zero hne)
    rw [powerSum_of_silence hsilent, powerSum_of_silence hsilent] at hless
    exact lt_irrefl 0 hless

/-- Settles O53: the completion is the effect of ANALYZE, whose bin is 0, of frequency 0 on both axes. -/
theorem analyzeOfOneBinOrSilenceFindsBinZero : Obligations.AnalyzeOfOneBinOrSilenceFindsBinZero := by
  unfold Obligations.AnalyzeOfOneBinOrSilenceFindsBinZero
  intro s hs hwf hfs hmin hmax hrange hcase
  have hc : checkLatched .analyze s = none :=
    checkLatched_eq_none hfs ((lengthSupported_analyze _).mpr ⟨hmin, hmax⟩) hrange
  have hexec := exec_busy hs hc
  rw [commandEffect, analyzeEffect_eq hwf, analysisBin_eq_zero hmin hcase, freqWord_zero,
    hsMatchFlag_zero (by omega) (by omega)] at hexec
  exact ⟨_, hexec, rfl, rfl, rfl, decide_eq_true_iff⟩

end Sys2Proof.Machine
end

section
/-! SUPPORT. The interrupt output (spec/60_exceptions.md R280): the level of CTRL and STATUS, and what takes it down. -/

namespace Sys2Proof.Machine

open Sys2Proof.Safety

/-! ### The level (R280) -/

theorem ctrlWord_getLsbD_irqEn (c : Ctrl) : (ctrlWord c).getLsbD 0 = c.irqEn := by
  simp only [ctrlWord, BitVec.getLsbD_append]; simp

/-- The interrupt is the level of what the host reads of CTRL and STATUS. -/
theorem irq_eq_true_iff_readReg (s : State) :
    s.irq = true ↔ (s.readReg .ctrl).getLsbD 0 = true ∧
      ((s.readReg .status).getLsbD 1 = true ∨ (s.readReg .status).getLsbD 2 = true) := by
  rw [State.readReg, State.readReg, ctrlWord_getLsbD_irqEn, statusWord_getLsbD_done, statusWord_getLsbD_err,
    State.irq, Bool.and_eq_true, Bool.or_eq_true]

theorem irq_of_not_done {s : State} (h : s.status.done = false) : s.irq = (s.ctrl.irqEn && s.status.err) := by
  rw [State.irq, h, Bool.false_or]

theorem irq_of_done {s : State} (h : s.status.done = true) : s.irq = s.ctrl.irqEn := by
  rw [State.irq, h, Bool.true_or, Bool.and_true]

/-! ### Moves that write the level -/

/-- An issue starts with DONE cleared, whether or not a check then refuses it (R141). -/
theorem issue_status_done (i : Instr) (s : State) : (issue i s).status.done = false := by
  rcases issue_cases i s with ⟨e, -, h⟩ | ⟨-, h⟩ <;> rw [h] <;> rfl

/-- A CMD write of an idle block clears DONE and keeps CTRL, whatever the word (R141). -/
theorem writeCmd_idle_clears_done {s : State} (hs : s.seq = .idle) (w : Word) :
    ∃ t, writeCmd w s = .next t ∧ t.ctrl = s.ctrl ∧ t.status.done = false := by
  cases hd : decode w with
  | error e => exact ⟨_, writeCmd_error hs hd, rfl, rfl⟩
  | ok i => exact ⟨_, writeCmd_ok hs hd, issue_ctrl i _, issue_status_done i _⟩

/-- A STATUS write of ones to DONE and ERR clears both (R39), so it takes the interrupt down. -/
theorem writeStatus_irq {v : Word} (hdone : v.getLsbD 1 = true) (herr : v.getLsbD 2 = true) (s : State) :
    (s.writeStatus v).irq = false := by
  rw [State.irq, State.writeStatus_status, hdone, herr]; simp

/-- A transfer that is a soft reset is accepted whatever SEQ is (R37, R311). -/
theorem step_softReset {tr : Transfer} (h : isSoftReset tr = true) (s : State) :
    step (present s (.transfer tr)) = .next (s.softReset.respond .writeOk) := by
  obtain ⟨w, a, v, b⟩ := tr
  obtain ⟨rfl, rfl, ha, hv⟩ := isSoftReset_eq_true.mp h
  have hwrite : step (present s (hostWrite a 0xF#4 v)) = writeReg .ctrl v s :=
    busWrite_reg (ha ▸ target_reg s.params .ctrl) v
  exact hwrite.trans (by rw [writeReg_ctrl, writeCtrl_reset hv])

/-- Settles O29: the level by `irq_eq_true_iff_readReg`; each other clause is what its write or reset leaves in CTRL and
STATUS. -/
theorem irqIsALevelOfCtrlAndStatus : Obligations.IrqIsALevelOfCtrlAndStatus := by
  unfold Obligations.IrqIsALevelOfCtrlAndStatus
  intro s
  simp only [step_hostWriteReg, writeReg_ctrl, writeReg_status]
  refine ⟨irq_eq_true_iff_readReg s, fun v hs hv => ?_, fun w hs => ?_, fun v hs hv => ?_, fun v hdone herr => ?_,
    fun e he => ?_⟩
  · exact ⟨_, rfl, by rw [writeCtrl_idle hv hs]; rfl⟩
  · obtain ⟨t, hstep, hctrl, hdone⟩ := writeCmd_idle_clears_done hs w
    exact ⟨t, hstep, hctrl ▸ irq_of_not_done hdone⟩
  · exact ⟨_, rfl, by rw [writeCtrl_busy hv hs]; rfl⟩
  · exact ⟨_, rfl, writeStatus_irq hdone herr s⟩
  · cases e with
    | transfer tr => exact ⟨_, step_softReset he s, rfl⟩
    | sequencer => cases he
    | powerOn => exact ⟨_, rfl, rfl⟩

/-! ### What takes the interrupt down -/

/-- The moves that clear the interrupt (R280, R310): a completion sets DONE, and no other move but these writes CTRL or
STATUS. -/
theorem MoveEffect.irq_falls {s t : State} {m : Option Event} (he : MoveEffect s m t) (hs : s.irq = true)
    (ht : t.irq = false) :
    m = some .powerOn ∨
    ∃ r ∈ [Reg.status, .ctrl, .cmd], ∃ a v,
      m = some (hostWrite a 0xF#4 v) ∧ a.toNat = r.offset ∧ t.response = .writeOk := by
  cases he with
  | powerOn => exact .inl rfl
  | status a v ha => exact .inr ⟨.status, by simp, a, v, rfl, ha, rfl⟩
  | ctrl a v ha => exact .inr ⟨.ctrl, by simp, a, v, rfl, ha, rfl⟩
  | softReset tr h =>
    obtain ⟨w, a, v, b⟩ := tr
    obtain ⟨rfl, rfl, ha, -⟩ := isSoftReset_eq_true.mp h
    exact .inr ⟨.ctrl, by simp, a, v, rfl, ha, rfl⟩
  | undecodable a v _ ha => exact .inr ⟨.cmd, by simp, a, v, rfl, ha, rfl⟩
  | issue a v i ha => exact .inr ⟨.cmd, by simp, a, v, rfl, ha, issue_response i _⟩
  | complete =>
    have hen : s.ctrl.irqEn = true := (Bool.and_eq_true_iff.mp hs).1
    rw [irq_of_done rfl, State.finish_ctrl, commandEffect_ctrl, hen] at ht
    cases ht
  | rest | answer | config | ram => exact absurd (hs.symm.trans ht) (by decide)

/-- Settles O30: a step is an effect of the next move, and `MoveEffect.irq_falls` names the moves that clear the
interrupt. -/
theorem irqFallsOnlyByTheHost : Obligations.IrqFallsOnlyByTheHost := by
  unfold Obligations.IrqFallsOnlyByTheHost
  intro s t hstep hs ht
  rcases (step_effect hstep).irq_falls hs ht with hm | ⟨r, hr, a, v, hm, ha, hresp⟩
  · exact .inl (List.head?_eq_some_iff.mp hm)
  · obtain ⟨rest, he⟩ := List.head?_eq_some_iff.mp hm
    exact .inr ⟨r, hr, a, v, rest, he, ha, hresp⟩

end Sys2Proof.Machine
end

section
/-! SUPPORT. The two resets (spec/70_reset_and_hazards.md R310 to R312): what the host reads of the registers after
them, and what they keep of the sample RAM. -/

namespace Sys2Proof.Machine

open Sys2Proof.Safety

/-! ### The registers (R312) -/

/-- PARAMS (R35) as one number, in which RAM_AW is the lowest field. -/
theorem paramsWord_eq_ofNat (p : Config.Params) : paramsWord p = BitVec.ofNat 32 (0x00200A00 + p.ramAw) := by
  have of_base_zero : ∀ k : Fin 11, paramsWord ⟨k, 0⟩ = BitVec.ofNat 32 (0x00200A00 + (8 + k.val)) := by decide
  exact of_base_zero p.ramAwLess8

theorem statusWord_reset {s : State} (hstatus : s.status = Status.reset) (hseq : s.seq = .idle) :
    s.statusWord = 0#32 := by
  rw [State.statusWord, hstatus, busy_eq_false.mpr hseq]; decide

/-- The registers read their reset values once every field behind them is reset (R312). -/
theorem resetRegs_of_fields {s : State} (hctrl : s.ctrl = Ctrl.reset) (hstatus : s.status = Status.reset)
    (hcfg : s.cfg = ConfigRegs.reset) (hres : s.res = Results.reset) (hseq : s.seq = .idle) : resetRegs s := by
  intro r
  cases r with
  | params => exact paramsWord_eq_ofNat s.params
  | ctrl => exact (congrArg ctrlWord hctrl).trans ctrlWord_reset
  | status => exact statusWord_reset hstatus hseq
  | id | version | cmd => rfl
  | argAddr | argLen | fs | freq0 | freq1 | startFreq | tol | freqT => rw [State.readReg, hcfg]; rfl
  | _ => rw [State.readReg, hres]; rfl

/-! ### Power-on (R310) -/

/-- A byte of a RAM that lists nothing is the free value of the RAM's draw (R90). -/
theorem readByte_of_ram_nil {s : State} (h : s.ram = []) (a : Nat) : s.readByte a = Config.freeByte s.ramDraw a := by
  rw [State.readByte, h]; rfl

/-- Settles O27: power-on resets every field that a register shows and lists no byte of the RAM. -/
theorem powerOnLeavesTheResetValues : Obligations.PowerOnLeavesTheResetValues := by
  unfold Obligations.PowerOnLeavesTheResetValues
  refine ⟨fun s => ?_, resetRegs_of_fields rfl rfl rfl rfl rfl, rfl, rfl, readByte_of_ram_nil rfl⟩
  exact ⟨s.powerOnReset, rfl, resetRegs_of_fields rfl rfl rfl rfl rfl, rfl, rfl, rfl, rfl, rfl,
    readByte_of_ram_nil rfl⟩

/-- Nothing is in flight, no byte of the RAM is listed and every register is reset, whatever the parameters, the hidden
registers and the draw. -/
theorem inv_powerOn (p : Config.Params) (lc : LatchedCommand) (dp : Datapath) (d : Nat) :
    Inv (State.powerOn p lc dp d) where
  status := statusOk_reset rfl
  latch := latchOk_of_idle rfl
  ram := ⟨List.Pairwise.nil, fun _ hc => absurd hc List.not_mem_nil⟩
  results := resultsOk_reset rfl

/-- Settles O31: `State.reset` is a state after power-on. -/
theorem resetMeetsTheInvariant : Obligations.ResetMeetsTheInvariant := by
  unfold Obligations.ResetMeetsTheInvariant
  exact ⟨inv_powerOn _ _ _ _, inv_powerOn⟩

/-! ### Soft reset (R311) -/

/-- A soft reset touches the RAM by the abort of a TONE in flight only. -/
theorem readByte_softReset (s : State) (a : Nat) : s.softReset.readByte a = s.abortRam.readByte a :=
  State.readByte_congr s.softReset_ram s.abortRam_ramDraw.symm a

/-- The buffer of an aborted TONE holds free values of the reset's draw. -/
theorem readByte_softReset_of_inToneBuffer {s : State} {a : Nat} (h : InToneBuffer s a) :
    s.softReset.readByte a = Config.freeByte s.draws a := by
  obtain ⟨hs, ⟨f, hf⟩, hin⟩ := h
  have habort : s.abortRam = s.loseSamples s.lc.addr.toNat s.lc.len.toNat s.draws := by
    rw [State.abortRam, hs, hf]
  rw [readByte_softReset, habort]
  exact s.readByte_loseSamples_inside hin

/-- Any other byte is kept. -/
theorem readByte_softReset_of_not_inToneBuffer {s : State} {a : Nat} (h : ¬InToneBuffer s a) :
    s.softReset.readByte a = s.readByte a := by
  rw [readByte_softReset]
  by_contra hlost
  exact h (inToneBuffer_of_abortRam hlost)

/-- Settles O28: the write is a soft reset whatever SEQ is, and of the RAM it loses the buffer of a TONE in flight. -/
theorem softResetKeepsAllRamButAnAbortedTone : Obligations.SoftResetKeepsAllRamButAnAbortedTone := by
  unfold Obligations.SoftResetKeepsAllRamButAnAbortedTone
  intro s v hv aborted
  have haborted (a : Nat) : aborted a ↔ InToneBuffer s a := and_assoc
  have hstep : step (present s (hostWriteReg .ctrl v)) = .next (s.softReset.respond .writeOk) := by
    rw [step_hostWriteReg, writeReg_ctrl, writeCtrl_reset hv]
  exact ⟨_, hstep, rfl, resetRegs_of_fields rfl rfl rfl rfl rfl, rfl, rfl, rfl, rfl,
    fun a h => readByte_softReset_of_not_inToneBuffer (mt (haborted a).mpr h),
    fun a h => readByte_softReset_of_inToneBuffer ((haborted a).mp h)⟩

end Sys2Proof.Machine
end
